-- ==== Sys2Proof/Word.lean ====
section
/-! DEFINITION. The byte and the sixteen-byte operand of the block. -/

namespace Sys2Proof

/-- One byte; bit 7 is the most significant bit (spec/00_scope.md R9). -/
abbrev Byte := BitVec 8

/-- A 16-byte operand or result: lane `i` carries byte index `i` (spec/20_memory.md R43, R46).
Operands are addressed by byte index and bit, never by a flat bus value. -/
abbrev Lanes := Vector Byte 16

/-- Sixteen bytes 0x00 (spec/00_scope.md R11 "all-zero"). -/
abbrev zeroLanes : Lanes := Vector.replicate 16 0#8

end Sys2Proof
end

