-- ==== Sys2Proof/Config.lean ====
section
/-! DEFINITION. The parameters the spec leaves open to an implementation, and the free value. -/

namespace Sys2Proof

/-- The parameters of one implementation (spec/00_scope.md R7). `LEN_W` is "OPEN; must be at least 5":
the record holds how far it lies above 5, so that every value of the record is a legal parameter.
`LATENCY`, `HANDSHAKE` and `ARBITRATION` are the schedule of `State` (log entry 2); no rule reads
`PLATFORM_MAP` (log entry 15). The record stands in `State`, so a statement about every state is about every
`LEN_W`. -/
structure Config where
  lenExtra : Nat
deriving DecidableEq, Repr

/-- `LEN_W`, the width in bits of `len`, `err_expected` and `err_actual` (spec/00_scope.md R7). -/
def Config.lenW (c : Config) : Nat := 5 + c.lenExtra

/-- The parameters `State.reset` has: `LEN_W = 8`, the value of the spec's own examples (R60, 95_test_vectors.md
section 3). DESIGN CHOICE, log entry 1. -/
def Config.reference : Config := ⟨3⟩

/-- The value of the response lines while they carry no response: "Their values are not specified"
(spec/70_reset_and_hazards.md R241, 93_implementation_defined.md I7). A FREE VALUE, log entry 6: `tick` is a
counter of State that the step advances, so each step has a value of its own. -/
opaque Config.freeLines (tick width : Nat) : BitVec width

end Sys2Proof
end

