-- ==== Sys2Proof/Machine/Lanes.lean ====
section
/-! DEFINITION. Reads and writes of one byte and one bit of a 16-byte operand, and its flattened bus. -/

namespace Sys2Proof.Machine

/-- Byte `b` of an operand. The addressable bytes are 0 to 15 (spec/10_state.md R29); no rule reads another. -/
def byteAt (l : Lanes) (b : Nat) : Byte := l.getD b 0#8

/-- Bit `i` of byte `b` (spec/00_scope.md R9, R11 `din[i][j]`). -/
def bitAt (l : Lanes) (b i : Nat) : Bool := (byteAt l b).getLsbD i

/-- A byte with its bit `i` made `x`. -/
def withBit (v : Byte) (i : Nat) (x : Bool) : Byte :=
  if x then v ||| 1#8 <<< i else v &&& ~~~(1#8 <<< i)

/-- An operand with bit `i` of its byte `b` made `x` (spec/00_scope.md R11 `dout[i][j] <- x`). -/
def putBit (l : Lanes) (b i : Nat) (x : Bool) : Lanes :=
  l.setIfInBounds b (withBit (byteAt l b) i x)

/-- "the 8-bit value whose bit `i` is bit `7 - i` of `x`" (spec/00_scope.md R11). -/
def rev8 (x : Byte) : Byte := x.reverse

/-- The 128-bit bus of a lane array: lane `i` at bits `[8*i + 7 : 8*i]` (spec/20_memory.md R43). -/
def laneBus (l : Lanes) : BitVec 128 :=
  let high : BitVec 64 := l[15] ++ l[14] ++ l[13] ++ l[12] ++ l[11] ++ l[10] ++ l[9] ++ l[8]
  let low : BitVec 64 := l[7] ++ l[6] ++ l[5] ++ l[4] ++ l[3] ++ l[2] ++ l[1] ++ l[0]
  high ++ low

/-- The lane array of a bus, the other direction of R43. -/
def busLanes (w : BitVec 128) : Lanes := Vector.ofFn fun i => w.extractLsb' (8 * i.val) 8

end Sys2Proof.Machine
end

