-- ==== Sys2Proof/Syntax.lean ====
section
/-! DEFINITION. A request as the host presents it, and the instruction it stands for. -/

namespace Sys2Proof

/-- The request format `REQ` (spec/30_encoding.md R60), fields by name. `len` is an unsigned number of bytes
(R63); that it fits in `LEN_W` bits is `Request.wf`. -/
structure Request where
  op  : BitVec 1
  len : Nat
  din : Lanes
deriving DecidableEq, Repr

/-- The two operations of the block, one constructor per row of spec/opcode_table.json (spec/30_encoding.md
R68: "No other operation exists"), each with the whole of its request. -/
inductive Instr where
  /-- `PACK`, `op = 0`: identifier to compact payload (spec/40_pack.md R100). -/
  | pack (len : Nat) (din : Lanes)
  /-- `UNPACK`, `op = 1`: compact payload to identifier (spec/41_unpack.md R120). -/
  | unpack (len : Nat) (din : Lanes)
deriving DecidableEq, Repr

end Sys2Proof
end

