-- ==== Sys2Proof/WellFormed.lean ====
section
/-! DEFINITION. The one check an instruction and a request must pass: the length fits its field. -/

namespace Sys2Proof

/-- `len` is "an unsigned number below `2^LEN_W`" (spec/00_scope.md R11). -/
def Request.wf (lenW : Nat) (r : Request) : Bool := decide (r.len < 2 ^ lenW)

/-- The same check on an instruction. Every lane value and, under PACK, every length that fits is allowed
(spec/30_encoding.md R69). -/
def Instr.wf (lenW : Nat) : Instr → Bool
  | .pack len _ => decide (len < 2 ^ lenW)
  | .unpack len _ => decide (len < 2 ^ lenW)

end Sys2Proof
end

