-- ==== Sys2Proof/Decode.lean ====
section
/-! DEFINITION. Decoding a request, the flat request word of R60 in both directions, and the numbering of
spec/opcode_table.json. -/

namespace Sys2Proof

open Sys2Proof.Machine

/-- Why the decoder refuses. No `op` value is among the reasons: "no `op` value is illegal" (R62). -/
inductive DecodeError where
  /-- The length does not fit in `LEN_W` bits, so no request carries it (92_eei_decisions.md D20). -/
  | lengthNotPresentable
  /-- The number has a bit above bit `128 + LEN_W`, so it is no request word (R60). -/
  | wordTooWide
deriving DecidableEq, Repr

/-- The decoder: "A decoder reads `op` and needs nothing else to know the format" (spec/30_encoding.md R70);
`op = 0` selects PACK and `op = 1` selects UNPACK (R62). -/
def decode (lenW : Nat) (r : Request) : Except DecodeError Instr :=
  if r.len < 2 ^ lenW then
    .ok (if r.op = 0#1 then .pack r.len r.din else .unpack r.len r.din)
  else
    .error .lengthNotPresentable

/-- The fields of the request that stands for an instruction (R68). -/
def encodeFields : Instr → Request
  | .pack len din => { op := 0#1, len := len, din := din }
  | .unpack len din => { op := 1#1, len := len, din := din }

/-- The flat request word (R60): `op` at bit `128 + LEN_W`, `len` at `[127 + LEN_W : 128]`, `din` lane `i` at
`[8*i + 7 : 8*i]`; `129 + LEN_W` bits. -/
def flattenRequest (lenW : Nat) (r : Request) : BitVec (1 + lenW + 128) :=
  r.op ++ BitVec.ofNat lenW r.len ++ laneBus r.din

/-- The request a flat request word carries (R60). -/
def unflattenRequest (lenW : Nat) (w : BitVec (1 + lenW + 128)) : Request :=
  { op := w.extractLsb' (128 + lenW) 1
    len := (w.extractLsb' 128 lenW).toNat
    din := busLanes (w.extractLsb' 0 128) }

/-- The decoder of flat request words, on any number. -/
def decodeWord (lenW w : Nat) : Except DecodeError Instr :=
  if w < 2 ^ (1 + lenW + 128) then
    decode lenW (unflattenRequest lenW (BitVec.ofNat (1 + lenW + 128) w))
  else
    .error .wordTooWide

/-- The encoder: the flat request word of an instruction. -/
def encode (lenW : Nat) (i : Instr) : BitVec (1 + lenW + 128) := flattenRequest lenW (encodeFields i)

/-- A number whose bits are those of a row of spec/opcode_table.json: the table's bit 0 is `op` ("op (1 bit;
flat REQ word bit 128+LEN_W)") and it numbers nothing else. The other bits of the request count on from there
in the order of the flat word, `din` then `len`. DESIGN CHOICE, log entry 4. -/
def tableRequest (w : Nat) : Request :=
  { op := BitVec.ofNat 1 w
    len := w / 2 ^ 129
    din := busLanes (BitVec.ofNat 128 (w / 2)) }

/-- The instruction the decoder reads from a word of the opcode table, under the parameters of `State.reset`. -/
def decodeTableWord (nbits w : Nat) : Option Instr :=
  (decode Config.reference.lenW (tableRequest (w % 2 ^ nbits))).toOption

end Sys2Proof
end

