-- ==== Sys2Proof/Machine/FixedBits.lean ====
section
/-! DEFINITION. The Fixed-Bit Table, the scan order, and the bit correspondence both operations use. -/

namespace Sys2Proof.Machine

/-- A Fixed-Bit Position: (byte index, bit mask, required bit pattern), the pattern aligned in its byte
(spec/10_state.md R23). -/
structure FixedBitPosition where
  byteIndex : Fin 16
  mask      : Byte
  pattern   : Byte
deriving DecidableEq, Repr

/-- The Fixed-Bit Table (spec/10_state.md R23): the version nibble `0100` and the RFC4122 variant `10`.
Hardwired (R24), so a constant (log entry 9); both operations read it. -/
def fixedBitTable : List FixedBitPosition :=
  [ { byteIndex := 6, mask := 0xF0#8, pattern := 0x40#8 },
    { byteIndex := 8, mask := 0xC0#8, pattern := 0x80#8 } ]

/-- The entry `e` names bit `i` of byte `b`. -/
def FixedBitPosition.names (e : FixedBitPosition) (b i : Nat) : Bool :=
  e.byteIndex.val == b && e.mask.getLsbD i

/-- `isFixed(b, i)` (spec/10_state.md R25). -/
def isFixed (b i : Nat) : Bool := fixedBitTable.any fun e => e.names b i

/-- `fixedValue(b, i)`, "defined only where isFixed(b, i)" (spec/10_state.md R25). -/
def fixedValue (b i : Nat) : Option Bool :=
  (fixedBitTable.find? fun e => e.names b i).map fun e => e.pattern.getLsbD i

/-- The byte of identifier scan position `k` (spec/00_scope.md R12). -/
def byteOf (k : Nat) : Nat := k / 8

/-- The bit of identifier scan position `k` (spec/00_scope.md R12). -/
def bitOf (k : Nat) : Nat := 7 - k % 8

/-- How many free positions the scan meets before position `k`: the number the walk of spec/10_state.md R27 gives
to position `k` when it is free. -/
def freeBelow (k : Nat) : Nat :=
  ((List.range k).filter fun m => !isFixed (byteOf m) (bitOf m)).length

/-- The stream position that holds the free bit at scan position `k`; undefined at the fixed positions
(spec/10_state.md R27). -/
def freeIndex (k : Nat) : Option Nat :=
  if k ≤ 47 then some k
  else if 52 ≤ k ∧ k ≤ 63 then some (k - 4)
  else if 66 ≤ k ∧ k ≤ 127 then some (k - 6)
  else none

/-- The scan position of free bit `j`, the inverse of `freeIndex` (spec/10_state.md R27). -/
def scanOf (j : Nat) : Option Nat :=
  if j ≤ 47 then some j
  else if j ≤ 59 then some (j + 4)
  else if j ≤ 121 then some (j + 6)
  else none

/-- A cell of the correspondence table (spec/10_state.md R28): `FIXED (v)`, or `j<n> = p<byte>.<bit>`. -/
inductive CorrespondenceCell where
  | fixed (v : Bool)
  | free (j byte bit : Nat)
deriving DecidableEq, Repr

/-- Rows 0 to 7 of the table of R28, one row per identifier byte, bit 7 first. -/
def correspondenceLow : List (List CorrespondenceCell) :=
  [ [.free 0 0 0, .free 1 0 1, .free 2 0 2, .free 3 0 3,
     .free 4 0 4, .free 5 0 5, .free 6 0 6, .free 7 0 7],
    [.free 8 1 0, .free 9 1 1, .free 10 1 2, .free 11 1 3,
     .free 12 1 4, .free 13 1 5, .free 14 1 6, .free 15 1 7],
    [.free 16 2 0, .free 17 2 1, .free 18 2 2, .free 19 2 3,
     .free 20 2 4, .free 21 2 5, .free 22 2 6, .free 23 2 7],
    [.free 24 3 0, .free 25 3 1, .free 26 3 2, .free 27 3 3,
     .free 28 3 4, .free 29 3 5, .free 30 3 6, .free 31 3 7],
    [.free 32 4 0, .free 33 4 1, .free 34 4 2, .free 35 4 3,
     .free 36 4 4, .free 37 4 5, .free 38 4 6, .free 39 4 7],
    [.free 40 5 0, .free 41 5 1, .free 42 5 2, .free 43 5 3,
     .free 44 5 4, .free 45 5 5, .free 46 5 6, .free 47 5 7],
    [.fixed false, .fixed true, .fixed false, .fixed false,
     .free 48 6 0, .free 49 6 1, .free 50 6 2, .free 51 6 3],
    [.free 52 6 4, .free 53 6 5, .free 54 6 6, .free 55 6 7,
     .free 56 7 0, .free 57 7 1, .free 58 7 2, .free 59 7 3] ]

/-- Rows 8 to 15 of the table of R28. -/
def correspondenceHigh : List (List CorrespondenceCell) :=
  [ [.fixed true, .fixed false, .free 60 7 4, .free 61 7 5,
     .free 62 7 6, .free 63 7 7, .free 64 8 0, .free 65 8 1],
    [.free 66 8 2, .free 67 8 3, .free 68 8 4, .free 69 8 5,
     .free 70 8 6, .free 71 8 7, .free 72 9 0, .free 73 9 1],
    [.free 74 9 2, .free 75 9 3, .free 76 9 4, .free 77 9 5,
     .free 78 9 6, .free 79 9 7, .free 80 10 0, .free 81 10 1],
    [.free 82 10 2, .free 83 10 3, .free 84 10 4, .free 85 10 5,
     .free 86 10 6, .free 87 10 7, .free 88 11 0, .free 89 11 1],
    [.free 90 11 2, .free 91 11 3, .free 92 11 4, .free 93 11 5,
     .free 94 11 6, .free 95 11 7, .free 96 12 0, .free 97 12 1],
    [.free 98 12 2, .free 99 12 3, .free 100 12 4, .free 101 12 5,
     .free 102 12 6, .free 103 12 7, .free 104 13 0, .free 105 13 1],
    [.free 106 13 2, .free 107 13 3, .free 108 13 4, .free 109 13 5,
     .free 110 13 6, .free 111 13 7, .free 112 14 0, .free 113 14 1],
    [.free 114 14 2, .free 115 14 3, .free 116 14 4, .free 117 14 5,
     .free 118 14 6, .free 119 14 7, .free 120 15 0, .free 121 15 1] ]

/-- The full correspondence (spec/10_state.md R28). -/
def correspondence : List (List CorrespondenceCell) := correspondenceLow ++ correspondenceHigh

end Sys2Proof.Machine
end

