-- ==== Sys2Proof/Machine/State.lean ====
section
/-! DEFINITION. Responses, events, the machine's state, its reasons to stop, and reset. -/

namespace Sys2Proof.Machine

/-- The outcome a response reports (spec/30_encoding.md R66). The code 3 is reserved and never produced, so it
has no name here; reading a response word that holds it is `Fault.reservedStatus`. -/
inductive Status where
  /-- "`dout` holds the result". -/
  | ok
  /-- "a compact payload is not exactly 16 bytes; carries expected and actual lengths". -/
  | invalidLength
  /-- "a compact payload's reserved high bits are set". -/
  | nonzeroPadding
deriving DecidableEq, Repr

/-- The response format `RSP` (spec/30_encoding.md R61), fields by name. -/
structure Response where
  status      : Status
  dout        : Lanes
  errExpected : Nat
  errActual   : Nat
deriving DecidableEq, Repr

/-- What can happen at the block, one event a step. The host accepts requests and drives reset; when the block
emits is open (`LATENCY`, `HANDSHAKE`, spec/00_scope.md R7). Log entries 2 and 13. -/
inductive Event where
  /-- The block accepts a request (spec/30_encoding.md R60). -/
  | request (r : Request)
  /-- The response outputs carry the oldest pending response, if there is one (spec/20_memory.md R50). -/
  | emit
  /-- Reset is asserted (spec/70_reset_and_hazards.md R241). -/
  | assertReset
  /-- Reset is released. -/
  | releaseReset
deriving DecidableEq, Repr

/-- The state. The block has no architectural state (spec/10_state.md R20 to R22); what is held is the in-flight
FIFO (R31), the response outputs (R61), the reset input (R241), the open parameters, and what comes from outside. -/
structure State where
  /-- The implementation's parameters (spec/00_scope.md R7). -/
  cfg      : Config
  /-- The events to come, oldest first (log entry 2). -/
  schedule : List Event
  /-- Reset is asserted. -/
  inReset  : Bool
  /-- The responses of accepted and not yet answered requests, oldest first (spec/10_state.md R31: "a FIFO of
  pending responses"). -/
  inFlight : List Response
  /-- What the response outputs carry now; `none`: they carry no response. -/
  rspOut   : Option Response
  /-- Selects the free value of the response lines (log entries 6 and 11). -/
  tick     : Nat
deriving DecidableEq, Repr

/-- Reasons for a fault. The block itself has none: an error is the status of a response, not a trap
(spec/60_exceptions.md R205). -/
inductive Fault where
  /-- A consumer read a response word with `status = 3`: "a consumer that sees it has seen a broken block"
  (93_implementation_defined.md I6). Raised by `readResponse` only, never by a step. Safe: it stops. -/
  | reservedStatus
deriving DecidableEq, Repr

/-- Reasons for a refusal. -/
inductive Refusal where
  /-- An instruction without a meaning. No arm of `exec` raises it. Safe. -/
  | notModelled (mnemonic : String)
  /-- A request whose length does not fit in `LEN_W` bits: it "cannot be presented", and a model "refuses such a
  request rather than truncate its length" (92_eei_decisions.md D20, spec/70_reset_and_hazards.md R246). Raised
  by the acceptance of a request and by UNPACK. Safe: it stops. -/
  | lengthNotPresentable
deriving DecidableEq, Repr

/-- The block right after reset: nothing in flight, no response on the outputs (spec/70_reset_and_hazards.md
R240, R241), reset released, nothing presented. Parameters, schedule and tick: log entries 1, 3, 11, 17. -/
def State.reset : State :=
  { cfg := Config.reference
    schedule := []
    inReset := false
    inFlight := []
    rspOut := none
    tick := 0 }

end Sys2Proof.Machine
end

