-- ==== Sys2Proof/Machine/Flags.lean ====
section
/-! DEFINITION. Status numbers and the two checks of UNPACK. The block has no flags and no condition codes
(spec/10_state.md R22): the status of a response is the only report of an outcome. -/

namespace Sys2Proof.Machine

/-- The 2-bit number of a status (spec/30_encoding.md R66). -/
def Status.code : Status → BitVec 2
  | .ok => 0#2
  | .invalidLength => 1#2
  | .nonzeroPadding => 2#2

/-- The status a 2-bit number names; 3 is reserved (R66, 93_implementation_defined.md I6). -/
def statusOfCode (c : BitVec 2) : Except Fault Status :=
  if c = 0#2 then .ok .ok
  else if c = 1#2 then .ok .invalidLength
  else if c = 2#2 then .ok .nonzeroPadding
  else .error .reservedStatus

/-- The expected payload length in bytes (spec/00_scope.md R6). -/
def expectedLength : Nat := 16

/-- The mask of the padding bits, `0b1111_1100` (spec/00_scope.md R6). -/
def paddingMask : Byte := 0b11111100#8

/-- The padding check: `din[15] & 0b1111_1100` is 0 (spec/41_unpack.md R122). -/
def paddingZero (din : Lanes) : Bool := byteAt din 15 &&& paddingMask == 0#8

end Sys2Proof.Machine
end

