-- ==== Sys2Proof/Machine/Operands.lean ====
section
/-! DEFINITION. Operand assembly on the host's side, the response word, and the numeric views of operands. -/

namespace Sys2Proof.Machine

/-- The PACK request for an identifier (spec/30_encoding.md R64); `len` is don't-care (R63). -/
def assemblePack (len : Nat) (identifier : Lanes) : Instr := .pack len identifier

/-- The UNPACK request for a byte sequence: `len = n` and `din[i] = s[i]` for `i < min(n, 16)`; the other lanes
"carry no byte of `s`", so they hold whatever the host left there, `fill` (spec/30_encoding.md R65). -/
def assembleUnpack (bytes : List Byte) (fill : Lanes) : Instr :=
  .unpack bytes.length (Vector.ofFn fun i => bytes.getD i.val (fill.get i))

/-- The bytes of an identifier written as 32 hexadecimal digits: "Each pair of digits is one byte, the first pair is
byte 0, and within a pair the first digit is bits 7..4" (spec/00_scope.md R14). -/
def ofHexDigits (digits : Vector (BitVec 4) 32) : Lanes :=
  Vector.ofFn fun i => digits[2 * i.val] ++ digits[2 * i.val + 1]

/-- The three written forms of a request (spec/30_encoding.md R71). -/
inductive WrittenRequest where
  /-- `PACK <identifier>`, its digits. -/
  | pack (identifier : Vector (BitVec 4) 32)
  /-- `UNPACK <b0> ... <b(n-1)>`. -/
  | unpack (bytes : List Byte)
  /-- `UNPACK len=<n> <b0> ... <b15>`. -/
  | unpackLen (len : Nat) (din : Lanes)
deriving DecidableEq, Repr

/-- The request a written form stands for (spec/30_encoding.md R71): under PACK `len` is "written as 16"; `fill` is
what the lanes without a byte hold (R65). -/
def WrittenRequest.instr (fill : Lanes) : WrittenRequest → Instr
  | .pack identifier => assemblePack 16 (ofHexDigits identifier)
  | .unpack bytes => assembleUnpack bytes fill
  | .unpackLen len din => .unpack len din

/-- The flat response word (spec/30_encoding.md R61): `err_actual` at `[129 + 2*LEN_W : 130 + LEN_W]`,
`err_expected` at `[129 + LEN_W : 130]`, `status` at `[129:128]`, `dout` lane `i` at `[8*i + 7 : 8*i]`. -/
def flattenResponse (lenW : Nat) (r : Response) : BitVec (lenW + lenW + 2 + 128) :=
  BitVec.ofNat lenW r.errActual ++ BitVec.ofNat lenW r.errExpected ++ r.status.code ++ laneBus r.dout

/-- A consumer's reading of a response word. It must "treat `status = 3` as a fault of the block"
(spec/70_reset_and_hazards.md R246). -/
def readResponse (lenW : Nat) (w : BitVec (lenW + lenW + 2 + 128)) : Except Fault Response :=
  match statusOfCode (w.extractLsb' 128 2) with
  | .error e => .error e
  | .ok status =>
    .ok
      { status := status
        dout := busLanes (w.extractLsb' 0 128)
        errExpected := (w.extractLsb' 130 lenW).toNat
        errActual := (w.extractLsb' (130 + lenW) lenW).toNat }

/-- The result a consumer may read: `dout` "only when `status = OK`" (spec/70_reset_and_hazards.md R246). -/
def Response.result (r : Response) : Option Lanes :=
  match r.status with
  | .ok => some r.dout
  | .invalidLength => none
  | .nonzeroPadding => none

/-- The response lines: the word of the response the outputs carry; a free value while they carry none
(spec/70_reset_and_hazards.md R241, log entry 6). -/
def responseLines (s : State) : BitVec (s.cfg.lenW + s.cfg.lenW + 2 + 128) :=
  match s.rspOut with
  | some r => flattenResponse s.cfg.lenW r
  | none => Config.freeLines s.tick (s.cfg.lenW + s.cfg.lenW + 2 + 128)

/-- An identifier as a number, `V = sum of u[i] * 2^(8*(15 - i))` (spec/20_memory.md R41). -/
def identifierNumber (u : Lanes) : Nat :=
  ((List.range 16).map fun i => (byteAt u i).toNat * 2 ^ (8 * (15 - i))).sum

/-- A payload as a number, `P = sum of p[i] * 2^(8*i)` (spec/20_memory.md R42). -/
def payloadNumber (p : Lanes) : Nat :=
  ((List.range 16).map fun i => (byteAt p i).toNat * 2 ^ (8 * i)).sum

end Sys2Proof.Machine
end

