-- ==== Sys2Proof/Machine/Ops.lean ====
section
/-! DEFINITION. The shared operations: producing a response, the two errors, emitting, reset.
The block has no exceptions to take and none to return from (spec/60_exceptions.md R205, R206): its two errors
are responses, produced by `raiseInvalidLength` and `raiseNonZeroPadding`. -/

namespace Sys2Proof.Machine

/-- `respond(status, dout, err_expected, err_actual)` (spec/00_scope.md R11): the response joins the FIFO of
pending responses. While reset is asserted a request gets no response (spec/70_reset_and_hazards.md R241, log
entry 5). -/
def respond (status : Status) (dout : Lanes) (errExpected errActual : Nat) (s : State) : State :=
  if s.inReset then s
  else
    { s with
      inFlight := s.inFlight ++
        [{ status := status, dout := dout, errExpected := errExpected, errActual := errActual }] }

/-- `raise InvalidLength(expected, actual)` (spec/00_scope.md R11). -/
def raiseInvalidLength (expected actual : Nat) (s : State) : State :=
  respond .invalidLength zeroLanes expected actual s

/-- `raise NonZeroPadding()` (spec/00_scope.md R11). -/
def raiseNonZeroPadding (s : State) : State :=
  respond .nonzeroPadding zeroLanes 0 0 s

/-- What every step does before its event: the event leaves the schedule, the outputs stop carrying the response
of the step before (log entry 10), and the free values move on. -/
def advance (s : State) : State :=
  { s with schedule := s.schedule.tail, rspOut := none, tick := s.tick + 1 }

/-- The outputs carry the oldest pending response ("The block answers requests in the order it accepts them",
spec/20_memory.md R50). With none pending, or while reset is asserted, they carry none (R241, log entry 12). -/
def emitOldest (s : State) : State :=
  match s.inReset, s.inFlight with
  | false, r :: rest => { s with inFlight := rest, rspOut := some r }
  | _, _ => { s with rspOut := none }

/-- Reset is asserted: requests in flight "are discarded and get no response", and "the response outputs carry
no response" (spec/70_reset_and_hazards.md R241). -/
def enterReset (s : State) : State := { s with inReset := true, inFlight := [], rspOut := none }

/-- Reset is released: "The first request after reset is processed by the same rules as every later one"
(spec/70_reset_and_hazards.md R243). -/
def leaveReset (s : State) : State := { s with inReset := false }

end Sys2Proof.Machine
end

