-- ==== Sys2Proof/Machine/Pack.lean ====
section
/-! DEFINITION. PACK: the bit scan that defines it, its meaning, and its two derived closed forms. -/

namespace Sys2Proof.Machine

/-- One turn of the PACK scan (spec/40_pack.md R100), on (next stream position, payload so far): a fixed bit is
skipped, a free bit is appended. -/
def packTurn (u : Lanes) (acc : Nat × Lanes) (k : Nat) : Nat × Lanes :=
  if isFixed (byteOf k) (bitOf k) then acc
  else (acc.1 + 1, putBit acc.2 (acc.1 / 8) (acc.1 % 8) (bitAt u (byteOf k) (bitOf k)))

/-- The PACK scan over scan positions 0 to 127 (spec/40_pack.md R100). -/
def packScan (u : Lanes) : Nat × Lanes := (List.range 128).foldl (packTurn u) (0, zeroLanes)

/-- The compact payload of an identifier (spec/40_pack.md R100). -/
def payloadOf (u : Lanes) : Lanes := (packScan u).2

/-- PACK (spec/40_pack.md R100): always `OK`, with `len` not read (R104, 30_encoding.md R63). -/
def execPack (_len : Nat) (din : Lanes) (s : State) : Host.Outcome State Fault Refusal :=
  .next (respond .ok (payloadOf din) 0 0 s)

/-- The byte form of PACK (spec/40_pack.md R107). -/
def packBytes (u : Lanes) : Lanes :=
  #v[ rev8 u[0], rev8 u[1], rev8 u[2], rev8 u[3], rev8 u[4], rev8 u[5],
      rev8 (((u[6] &&& 0x0F#8) <<< 4) ||| (u[7] >>> 4)),
      rev8 (((u[7] &&& 0x0F#8) <<< 4) ||| ((u[8] >>> 2) &&& 0x0F#8)),
      rev8 (((u[8] &&& 0x03#8) <<< 6) ||| (u[9] >>> 2)),
      rev8 (((u[9] &&& 0x03#8) <<< 6) ||| (u[10] >>> 2)),
      rev8 (((u[10] &&& 0x03#8) <<< 6) ||| (u[11] >>> 2)),
      rev8 (((u[11] &&& 0x03#8) <<< 6) ||| (u[12] >>> 2)),
      rev8 (((u[12] &&& 0x03#8) <<< 6) ||| (u[13] >>> 2)),
      rev8 (((u[13] &&& 0x03#8) <<< 6) ||| (u[14] >>> 2)),
      rev8 (((u[14] &&& 0x03#8) <<< 6) ||| (u[15] >>> 2)),
      rev8 ((u[15] &&& 0x03#8) <<< 6) ]

/-- `W` of spec/40_pack.md R108: the identifier's number without its bits 79 to 76, 63 and 62, the gaps closed. -/
def closedNumber (u : Lanes) : BitVec 122 :=
  let v := BitVec.ofNat 128 (identifierNumber u)
  v.extractLsb' 80 48 ++ v.extractLsb' 64 12 ++ v.extractLsb' 0 62

/-- The payload number of the numeric form of PACK (spec/40_pack.md R108): `W` reversed, bits 122 to 127 zero. -/
def packNumber (u : Lanes) : Nat := (closedNumber u).reverse.toNat

end Sys2Proof.Machine
end

