-- ==== Sys2Proof/Machine/Unpack.lean ====
section
/-! DEFINITION. UNPACK: its two checks, the bit scan that rebuilds the identifier, and its derived closed form. -/

namespace Sys2Proof.Machine

/-- One turn of the UNPACK scan (spec/41_unpack.md R120), on (next stream position, identifier so far): a fixed
bit comes from the table (R123), a free bit is the next bit of the stream (R124). -/
def unpackTurn (p : Lanes) (acc : Nat × Lanes) (k : Nat) : Nat × Lanes :=
  match fixedValue (byteOf k) (bitOf k) with
  | some v => (acc.1, putBit acc.2 (byteOf k) (bitOf k) v)
  | none => (acc.1 + 1, putBit acc.2 (byteOf k) (bitOf k) (bitAt p (acc.1 / 8) (acc.1 % 8)))

/-- The UNPACK scan over scan positions 0 to 127 (spec/41_unpack.md R120). -/
def unpackScan (p : Lanes) : Nat × Lanes := (List.range 128).foldl (unpackTurn p) (0, zeroLanes)

/-- The identifier rebuilt from a payload (spec/41_unpack.md R120). -/
def identifierOf (p : Lanes) : Lanes := (unpackScan p).2

/-- UNPACK (spec/41_unpack.md R120): length first (R121), padding second (R122), then the reconstruction. A length
that does not fit `LEN_W` is no request at all (92_eei_decisions.md D20). -/
def execUnpack (len : Nat) (din : Lanes) (s : State) : Host.Outcome State Fault Refusal :=
  if len < 2 ^ s.cfg.lenW then
    if len ≠ expectedLength then .next (raiseInvalidLength expectedLength len s)
    else if paddingZero din then .next (respond .ok (identifierOf din) 0 0 s)
    else .next (raiseNonZeroPadding s)
  else .refused .lengthNotPresentable

/-- The byte form of a successful UNPACK (spec/41_unpack.md R128). -/
def unpackBytes (p : Lanes) : Lanes :=
  let x := p.map rev8
  #v[ x[0], x[1], x[2], x[3], x[4], x[5],
      0x40#8 ||| (x[6] >>> 4),
      ((x[6] &&& 0x0F#8) <<< 4) ||| (x[7] >>> 4),
      0x80#8 ||| ((x[7] &&& 0x0F#8) <<< 2) ||| (x[8] >>> 6),
      ((x[8] &&& 0x3F#8) <<< 2) ||| (x[9] >>> 6),
      ((x[9] &&& 0x3F#8) <<< 2) ||| (x[10] >>> 6),
      ((x[10] &&& 0x3F#8) <<< 2) ||| (x[11] >>> 6),
      ((x[11] &&& 0x3F#8) <<< 2) ||| (x[12] >>> 6),
      ((x[12] &&& 0x3F#8) <<< 2) ||| (x[13] >>> 6),
      ((x[13] &&& 0x3F#8) <<< 2) ||| (x[14] >>> 6),
      ((x[14] &&& 0x3F#8) <<< 2) ||| (x[15] >>> 6) ]

end Sys2Proof.Machine
end

