-- ==== Sys2Proof/Machine/Dispatch.lean ====
section
/-! DEFINITION. One arm per constructor of Instr. -/

namespace Sys2Proof.Machine

def exec (i : Instr) (s : State) : Host.Outcome State Fault Refusal :=
  match i with
  | .pack len din => Sys2Proof.Machine.execPack len din s
  | .unpack len din => Sys2Proof.Machine.execUnpack len din s

end Sys2Proof.Machine
end

