-- ==== Sys2Proof/Machine/Events.lean ====
section
/-! DEFINITION. What the block does at one event. -/

namespace Sys2Proof.Machine

/-- The refusal that answers a request the decoder refuses. `decode` gives only the first reason: the second is of
`decodeWord`, on a number that is no request word and so carries no length that can be presented either. -/
def refusalOf : DecodeError → Refusal
  | .lengthNotPresentable => .lengthNotPresentable
  | .wordTooWide => .lengthNotPresentable

/-- A request is accepted: it is decoded and its operation performed (spec/10_state.md R21). -/
def acceptRequest (r : Request) (s : State) : Host.Outcome State Fault Refusal :=
  match decode s.cfg.lenW r with
  | .ok i => exec i s
  | .error e => .refused (refusalOf e)

/-- One event. -/
def perform (e : Event) (s : State) : Host.Outcome State Fault Refusal :=
  match e with
  | .request r => acceptRequest r s
  | .emit => .next (emitOldest s)
  | .assertReset => .next (enterReset s)
  | .releaseReset => .next (leaveReset s)

/-- The event the next step takes. -/
def nextEvent (s : State) : Option Event := s.schedule.head?

/-- The schedule with a request in front: the host presents it before anything else happens, with reset
released so that it is answered (log entry 3). -/
def presentFirst (r : Request) (s : State) : State :=
  { s with schedule := .request r :: s.schedule, inReset := false }

end Sys2Proof.Machine
end

