-- ==== Sys2Proof/Machine/Step.lean ====
section
/-! DEFINITION. One step of the machine: one event of the schedule. -/

namespace Sys2Proof.Machine

/-- One step: the next event happens; with no event to come, the block does nothing (it has no program to run,
spec/10_state.md R21). -/
def step (s : State) : Host.Outcome State Fault Refusal :=
  match nextEvent s with
  | none => .next (advance s)
  | some e => perform e (advance s)

/-- `s` with the request of an opcode-table word as the very next event (log entries 3 and 4). -/
def State.withFetchWord (s : State) (nbits w : Nat) : State :=
  presentFirst (tableRequest (w % 2 ^ nbits)) s

end Sys2Proof.Machine
end

