-- ==== Sys2Proof/Safety.lean ====
section
/-! DEFINITION. The terms claims are stated in: canonical identifiers, valid payloads, responses as the spec
allows them, the invariant of the state, and the responses a run emits. -/

namespace Sys2Proof.Machine

/-- A Canonical Identifier: byte 6 bits 7..4 are `0100` and byte 8 bits 7..6 are `10` (spec/00_scope.md R15). -/
abbrev Canonical (u : Lanes) : Prop :=
  byteAt u 6 &&& 0xF0#8 = 0x40#8 ∧ byteAt u 8 &&& 0xC0#8 = 0x80#8

/-- A valid payload: bits 7..2 of byte 15 are zero (spec/00_scope.md R15). -/
abbrev ValidPayload (p : Lanes) : Prop := byteAt p 15 &&& 0b11111100#8 = 0#8

/-- `normalize(u)` (spec/42_laws.md R150): `u` but for the fixed bits of bytes 6 and 8. -/
def normalizeIdentifier (u : Lanes) : Lanes :=
  (u.set 6 ((u[6] &&& 0x0F#8) ||| 0x40#8)).set 8 ((u[8] &&& 0x3F#8) ||| 0x80#8)

/-- Two identifiers hold the same bit at every free scan position (spec/10_state.md R26). -/
def SameFreeBits (u v : Lanes) : Prop :=
  ∀ k < 128, isFixed (byteOf k) (bitOf k) = false →
    bitAt u (byteOf k) (bitOf k) = bitAt v (byteOf k) (bitOf k)

/-- What each status allows in the other fields of a response (spec/30_encoding.md R67); an `OK` response holds
the result of one of the two operations: a valid payload (R102) or a canonical identifier (R125). -/
abbrev Response.Conforms (lenW : Nat) (r : Response) : Prop :=
  (r.status = .ok → r.errExpected = 0 ∧ r.errActual = 0 ∧ (ValidPayload r.dout ∨ Canonical r.dout)) ∧
  (r.status = .invalidLength →
    r.dout = zeroLanes ∧ r.errExpected = 16 ∧ r.errActual ≠ 16 ∧ r.errActual < 2 ^ lenW) ∧
  (r.status = .nonzeroPadding → r.dout = zeroLanes ∧ r.errExpected = 0 ∧ r.errActual = 0)

/-- The invariant of the state: every response in flight or on the outputs is one the spec allows, and while
reset is asserted nothing is in flight and the outputs carry no response (spec/70_reset_and_hazards.md R241). -/
abbrev State.Inv (s : State) : Prop :=
  (∀ r ∈ s.inFlight, r.Conforms s.cfg.lenW) ∧
  (∀ r ∈ s.rspOut, r.Conforms s.cfg.lenW) ∧
  (s.inReset = true → s.inFlight = [] ∧ s.rspOut = none)

/-- The block with nothing in flight and nothing to come, out of reset, under given parameters. -/
def State.idle (c : Config) : State := { State.reset with cfg := c }

/-- The state in which one more response is in flight and nothing else differs. -/
def State.withResponse (s : State) (r : Response) : State := { s with inFlight := s.inFlight ++ [r] }

/-- The responses a request gets when an idle block accepts it alone. -/
def responsesAlone (c : Config) (r : Request) : List Response :=
  match acceptRequest r (State.idle c) with
  | .next t => t.inFlight
  | .fault _ => []
  | .refused _ => []

/-- The requests of a schedule, oldest first. -/
def requestsOf : List Event → List Request
  | [] => []
  | .request r :: es => r :: requestsOf es
  | .emit :: es => requestsOf es
  | .assertReset :: es => requestsOf es
  | .releaseReset :: es => requestsOf es

/-- An event that keeps reset as it is and presents only requests whose length fits. -/
abbrev Event.plain (lenW : Nat) (e : Event) : Prop :=
  match e with
  | .request r => r.wf lenW = true
  | .emit => True
  | .assertReset => False
  | .releaseReset => False

/-- The state after `n` steps, stopping at the first fault or refusal. -/
def runFor : Nat → State → Host.Outcome State Fault Refusal
  | 0, s => .next s
  | n + 1, s =>
    match step s with
    | .next t => runFor n t
    | .fault f => .fault f
    | .refused x => .refused x

/-- The responses the outputs carry over the next `n` steps, oldest first. -/
def emitted : Nat → State → List Response
  | 0, _ => []
  | n + 1, s =>
    match step s with
    | .next t => t.rspOut.toList ++ emitted n t
    | .fault _ => []
    | .refused _ => []

end Sys2Proof.Machine
end

