-- ==== Sys2Proof/Certificates/Slice0/Obligations.lean ====
section
/-! DEFINITION. The statements for the provers. -/

open Sys2Proof Sys2Proof.Machine

/-! ### The Fixed-Bit Table and the bit correspondence -/

/-- spec/10_state.md R23: the two entries, each pattern aligned in its byte with its bits outside the mask 0. -/
def Obligations.FixedBitTableEntries : Prop :=
  fixedBitTable.map (fun e => (e.byteIndex.val, e.mask, e.pattern)) =
    [(6, 0b11110000#8, 0b01000000#8), (8, 0b11000000#8, 0b10000000#8)] ∧
  ∀ e ∈ fixedBitTable, e.pattern &&& ~~~e.mask = 0#8

/-- spec/10_state.md R25: the two reads of the table, in general and as they reduce. -/
def Obligations.FixedBitReads : Prop :=
  ∀ b < 16, ∀ i < 8,
    (isFixed b i = true ↔ ∃ e ∈ fixedBitTable, e.byteIndex.val = b ∧ e.mask.getLsbD i = true) ∧
    (∀ e ∈ fixedBitTable, e.byteIndex.val = b → e.mask.getLsbD i = true →
      fixedValue b i = some (e.pattern.getLsbD i)) ∧
    (isFixed b i = true ↔ (b = 6 ∧ i ∈ [7, 6, 5, 4]) ∨ (b = 8 ∧ i ∈ [7, 6])) ∧
    (isFixed b i = false → fixedValue b i = none) ∧
    fixedValue 6 7 = some false ∧ fixedValue 6 6 = some true ∧ fixedValue 6 5 = some false ∧
    fixedValue 6 4 = some false ∧ fixedValue 8 7 = some true ∧ fixedValue 8 6 = some false

/-- spec/10_state.md R26: the table is well formed, and names 6 of the 128 scan positions. -/
def Obligations.FixedBitTableWellFormed : Prop :=
  (fixedBitTable.map fun e => e.byteIndex).Nodup ∧
  (∀ e ∈ fixedBitTable, e.pattern &&& ~~~e.mask = 0#8) ∧
  ((List.range 128).filter fun k => isFixed (byteOf k) (bitOf k)) = [48, 49, 50, 51, 64, 65] ∧
  ((List.range 128).filter fun k => !isFixed (byteOf k) (bitOf k)).length = 122

/-- spec/10_state.md R27: `freeIndex` numbers the free positions in scan order, `scanOf` is its inverse, and both
operations copy along it, PACK one way and UNPACK the other, UNPACK filling the fixed positions from the table. -/
def Obligations.FreeIndexCorrespondence : Prop :=
  (∀ k < 128, freeIndex k = if isFixed (byteOf k) (bitOf k) then none else some (freeBelow k)) ∧
  (∀ k j, freeIndex k = some j ↔ scanOf j = some k) ∧
  (∀ k ≤ 47, freeIndex k = some k) ∧ (∀ k, 52 ≤ k → k ≤ 63 → freeIndex k = some (k - 4)) ∧
  (∀ k, 66 ≤ k → k ≤ 127 → freeIndex k = some (k - 6)) ∧
  (∀ j ≤ 47, scanOf j = some j) ∧ (∀ j, 48 ≤ j → j ≤ 59 → scanOf j = some (j + 4)) ∧
  (∀ j, 60 ≤ j → j ≤ 121 → scanOf j = some (j + 6)) ∧
  (∀ u k j, freeIndex k = some j →
    bitAt (payloadOf u) (j / 8) (j % 8) = bitAt u (byteOf k) (bitOf k)) ∧
  (∀ p k j, freeIndex k = some j →
    bitAt (identifierOf p) (byteOf k) (bitOf k) = bitAt p (j / 8) (j % 8)) ∧
  (∀ p, ∀ k < 128, ∀ v, fixedValue (byteOf k) (bitOf k) = some v →
    bitAt (identifierOf p) (byteOf k) (bitOf k) = v)

/-- spec/10_state.md R28: the written-out table agrees in every cell with the table reads and with `freeIndex`, and
no cell holds a padding position. -/
def Obligations.CorrespondenceTable : Prop :=
  correspondence.length = 16 ∧ (∀ row ∈ correspondence, row.length = 8) ∧
  (∀ b < 16, ∀ i < 8, ∃ row ∈ correspondence[b]?, ∃ cell ∈ row[7 - i]?,
    match cell with
    | .fixed v => fixedValue b i = some v
    | .free j byte bit =>
      freeIndex (8 * b + (7 - i)) = some j ∧ byte = j / 8 ∧ bit = j % 8 ∧ isFixed b i = false) ∧
  ∀ row ∈ correspondence, ∀ byte bit j, 122 ≤ j → CorrespondenceCell.free j byte bit ∉ row

/-! ### Encodings -/

/-- Decoding the flat word of a well-formed instruction gives that instruction, at every `LEN_W`. -/
def Obligations.DecodeOfEncode : Prop :=
  ∀ (lenW : Nat) (i : Instr), i.wf lenW = true → decodeWord lenW (encode lenW i).toNat = .ok i

/-- Every request word decodes to a well-formed instruction, whose encoding is that word. -/
def Obligations.EncodeOfDecode : Prop :=
  ∀ (lenW : Nat) (w : BitVec (1 + lenW + 128)),
    ∃ i, decodeWord lenW w.toNat = .ok i ∧ i.wf lenW = true ∧ encode lenW i = w

/-- spec/30_encoding.md R62: `op` alone selects the operation, and both of its values are defined. -/
def Obligations.OpSelectsOperation : Prop :=
  (∀ op : BitVec 1, op = 0#1 ∨ op = 1#1) ∧
  ∀ (lenW : Nat) (r : Request), r.wf lenW = true →
    (r.op = 0#1 → decode lenW r = .ok (.pack r.len r.din)) ∧
    (r.op = 1#1 → decode lenW r = .ok (.unpack r.len r.din))

/-- spec/30_encoding.md R60: where the fields stand in the flat request word of `129 + LEN_W` bits. -/
def Obligations.RequestWordFields : Prop :=
  ∀ (lenW : Nat) (r : Request), r.wf lenW = true →
    1 + lenW + 128 = 129 + lenW ∧
    (∀ i < 16, (flattenRequest lenW r).extractLsb' (8 * i) 8 = byteAt r.din i) ∧
    ((flattenRequest lenW r).extractLsb' 128 lenW).toNat = r.len ∧
    (flattenRequest lenW r).extractLsb' (128 + lenW) 1 = r.op

/-- spec/30_encoding.md R61: where the fields stand in the flat response word of `130 + 2*LEN_W` bits. -/
def Obligations.ResponseWordFields : Prop :=
  ∀ (lenW : Nat) (r : Response), r.errExpected < 2 ^ lenW → r.errActual < 2 ^ lenW →
    lenW + lenW + 2 + 128 = 130 + 2 * lenW ∧
    (∀ i < 16, (flattenResponse lenW r).extractLsb' (8 * i) 8 = byteAt r.dout i) ∧
    (flattenResponse lenW r).extractLsb' 128 2 = r.status.code ∧
    ((flattenResponse lenW r).extractLsb' 130 lenW).toNat = r.errExpected ∧
    ((flattenResponse lenW r).extractLsb' (130 + lenW) lenW).toNat = r.errActual

/-- A consumer reads from a response word the response that was put into it. -/
def Obligations.ResponseWordRoundTrip : Prop :=
  ∀ (lenW : Nat) (r : Response), r.errExpected < 2 ^ lenW → r.errActual < 2 ^ lenW →
    readResponse lenW (flattenResponse lenW r) = .ok r

/-- The three status numbers, and that a consumer's reading faults exactly on the reserved status 3, which no
response the block makes carries. -/
def Obligations.ReservedStatusIsAFault : Prop :=
  Status.ok.code = 0#2 ∧ Status.invalidLength.code = 1#2 ∧ Status.nonzeroPadding.code = 2#2 ∧
  ∀ (lenW : Nat), (∀ w, readResponse lenW w = .error .reservedStatus ↔ w.extractLsb' 128 2 = 3#2) ∧
    ∀ r : Response, (flattenResponse lenW r).extractLsb' 128 2 ≠ 3#2

/-- Sanity: every request word the spec writes out, the two of P1 and the four of P3 (95_test_vectors.md, `LEN_W = 8`),
and the two rows of the opcode table. The numbering of a table word's bits above `op`, and so the zeros of its other
fields, is the model's choice (log entry 4). -/
def Obligations.RequestWordsOfTheSpec : Prop :=
  decodeWord 8 0x01000004455664416A7D4419BE200840E55 =
    .ok (.pack 16 #v[0x55, 0x0E, 0x84, 0x00, 0xE2, 0x9B, 0x41, 0xD4,
                     0xA7, 0x16, 0x44, 0x66, 0x55, 0x44, 0x00, 0x00]) ∧
  decodeWord 8 0x1100000008AA99889A392B8D947002170AA =
    .ok (.unpack 16 #v[0xAA, 0x70, 0x21, 0x00, 0x47, 0xD9, 0xB8, 0x92,
                       0xA3, 0x89, 0x98, 0xA9, 0x8A, 0x00, 0x00, 0x00]) ∧
  decodeWord 8 0x10FFF000000000000000000000000000000 =
    .ok (.unpack 15 #v[0, 0, 0, 0, 0, 0, 0, 0, 0, 0, 0, 0, 0, 0, 0, 0xFF]) ∧
  decodeWord 8 0x110FF000000000000000000000000000000 =
    .ok (.unpack 16 #v[0, 0, 0, 0, 0, 0, 0, 0, 0, 0, 0, 0, 0, 0, 0, 0xFF]) ∧
  decodeWord 8 0x11003000000000000000000000000000000 =
    .ok (.unpack 16 #v[0, 0, 0, 0, 0, 0, 0, 0, 0, 0, 0, 0, 0, 0, 0, 0x03]) ∧
  decodeWord 8 0x11111111111111111111111111111111111 = .ok (.unpack 17 (Vector.replicate 16 0x11#8)) ∧
  decodeTableWord 8 0 = some (.pack 0 zeroLanes) ∧ decodeTableWord 8 1 = some (.unpack 0 zeroLanes)

/-! ### PACK -/

/-- spec/40_pack.md R102, R104, R105: PACK completes for every input and every `len`; its one effect is its
response, with status `OK`, every free bit copied, and the padding 0, so that UNPACK accepts it. -/
def Obligations.PackAnswersThePayload : Prop :=
  ∀ (s : State) (len : Nat) (din : Lanes), s.inReset = false →
    exec (.pack len din) s =
      .next { s with inFlight := s.inFlight ++
        [{ status := .ok, dout := payloadOf din, errExpected := 0, errActual := 0 }] } ∧
    (∀ k < 128, isFixed (byteOf k) (bitOf k) = false → ∃ j < 122, freeIndex k = some j ∧
      bitAt (payloadOf din) (j / 8) (j % 8) = bitAt din (byteOf k) (bitOf k)) ∧
    byteAt (payloadOf din) 15 &&& 0b11111100#8 = 0#8 ∧
    ∀ t : State, t.inReset = false → ∃ u : Lanes,
      exec (.unpack 16 (payloadOf din)) t = .next { t with inFlight := t.inFlight ++
        [{ status := .ok, dout := u, errExpected := 0, errActual := 0 }] }

/-- spec/40_pack.md R101: the PACK scan ends at stream position 122, and the positions above hold 0. -/
def Obligations.PackAppends122Bits : Prop :=
  ∀ u : Lanes, (packScan u).1 = 122 ∧
    ∀ j, 122 ≤ j → j ≤ 127 → bitAt (payloadOf u) (j / 8) (j % 8) = false

/-- The bits at the fixed positions change nothing (spec/40_pack.md R103), and neither does `len`
(spec/30_encoding.md R63, spec/40_pack.md R104: the spec's decision D5, log entry 7). -/
def Obligations.PackIgnoresFixedBitsAndLength : Prop :=
  ∀ (s : State) (len len' : Nat) (u v : Lanes), SameFreeBits u v →
    exec (.pack len u) s = exec (.pack len' v) s

/-- spec/40_pack.md R107: the byte form computes exactly the scan's function. -/
def Obligations.PackEqualsByteForm : Prop := ∀ u : Lanes, payloadOf u = packBytes u

/-- spec/40_pack.md R108: the numeric form computes exactly the scan's function. -/
def Obligations.PackEqualsNumericForm : Prop :=
  ∀ u : Lanes, payloadNumber (payloadOf u) = packNumber u ∧
    ∀ j < 128, (payloadNumber (payloadOf u)).testBit j =
      if j < 122 then (closedNumber u).getLsbD (121 - j) else false

/-- spec/40_pack.md R106: PACK maps onto the valid payloads, exactly 64 inputs to each, exactly one of them
canonical; two inputs share a payload exactly when they share the 122 free bits. -/
def Obligations.PackMapsSixtyFourInputsToEachPayload : Prop :=
  (∀ u : Lanes, ValidPayload (payloadOf u)) ∧
  (∀ p : Lanes, ValidPayload p →
    {u : Lanes | payloadOf u = p}.ncard = 64 ∧ ∃! u : Lanes, payloadOf u = p ∧ Canonical u) ∧
  ∀ u v : Lanes, payloadOf u = payloadOf v ↔ SameFreeBits u v

/-! ### UNPACK -/

/-- spec/41_unpack.md R121: a length other than 16 is reported with 16 and itself, whatever the lanes hold. -/
def Obligations.UnpackRejectsWrongLength : Prop :=
  ∀ (s : State) (len : Nat) (din : Lanes), s.inReset = false → len < 2 ^ s.cfg.lenW → len ≠ 16 →
    exec (.unpack len din) s =
      .next { s with inFlight := s.inFlight ++
        [{ status := .invalidLength, dout := zeroLanes, errExpected := 16, errActual := len }] }

/-- spec/41_unpack.md R122: at length 16 a set padding bit is reported, and no bit of the payload is used. -/
def Obligations.UnpackRejectsNonzeroPadding : Prop :=
  ∀ (s : State) (din : Lanes), s.inReset = false → byteAt din 15 &&& 0b11111100#8 ≠ 0#8 →
    exec (.unpack 16 din) s =
      .next { s with inFlight := s.inFlight ++
        [{ status := .nonzeroPadding, dout := zeroLanes, errExpected := 0, errActual := 0 }] }

/-- spec/41_unpack.md R123, R124: at length 16 with padding 0, UNPACK completes with `OK`: the fixed positions hold
the table's values, the free ones the 122 stream bits in order. -/
def Obligations.UnpackRebuildsTheIdentifier : Prop :=
  ∀ (s : State) (din : Lanes), s.inReset = false → byteAt din 15 &&& 0b11111100#8 = 0#8 →
    exec (.unpack 16 din) s =
      .next { s with inFlight := s.inFlight ++
        [{ status := .ok, dout := identifierOf din, errExpected := 0, errActual := 0 }] } ∧
    (∀ k < 128, ∀ v, fixedValue (byteOf k) (bitOf k) = some v →
      bitAt (identifierOf din) (byteOf k) (bitOf k) = v) ∧
    (∀ k < 128, isFixed (byteOf k) (bitOf k) = false → ∃ j < 122, freeIndex k = some j ∧
      bitAt (identifierOf din) (byteOf k) (bitOf k) = bitAt din (j / 8) (j % 8)) ∧
    (unpackScan din).1 = 122 ∧
    byteAt (identifierOf din) 6 &&& 0xF0#8 = 0x40#8 ∧ byteAt (identifierOf din) 8 &&& 0xC0#8 = 0x80#8

/-- spec/41_unpack.md R125: every response of UNPACK with status `OK` holds a canonical identifier. -/
def Obligations.UnpackOutputIsCanonical : Prop :=
  ∀ (s : State) (len : Nat) (din : Lanes) (r : Response),
    exec (.unpack len din) s = .next (s.withResponse r) → r.status = .ok →
      byteAt r.dout 6 &&& 0xF0#8 = 0x40#8 ∧ byteAt r.dout 8 &&& 0xC0#8 = 0x80#8

/-- spec/41_unpack.md R128: on a valid payload the byte form computes exactly the scan's function. -/
def Obligations.UnpackEqualsByteForm : Prop :=
  ∀ p : Lanes, ValidPayload p → identifierOf p = unpackBytes p

/-- spec/30_encoding.md R65: how a byte sequence of any length is presented, that the lanes it does not fill never
matter, and that a sequence whose length does not fit is refused, not truncated. -/
def Obligations.UnpackPresentsAByteSequence : Prop :=
  ∀ (s : State) (bytes : List Byte) (fill fill' : Lanes),
    (∃ din, assembleUnpack bytes fill = .unpack bytes.length din ∧
      ∀ i < min bytes.length 16, bytes[i]? = some (byteAt din i)) ∧
    exec (assembleUnpack bytes fill) s = exec (assembleUnpack bytes fill') s ∧
    (bytes.length ≠ 16 → ∀ din din' : Lanes,
      exec (.unpack bytes.length din) s = exec (.unpack bytes.length din') s) ∧
    (2 ^ s.cfg.lenW ≤ bytes.length →
      exec (assembleUnpack bytes fill) s = .refused .lengthNotPresentable)

/-- spec/00_scope.md R14, 30_encoding.md R71: of each pair of digits the first is bits 7..4 and the second bits 3..0 of
its byte, and the spec's own identifier gives the bytes the spec lists; the PACK form stands for its digits' bytes with
`len` 16, the UNPACK forms for any byte sequence with its own length, and for any given length and lanes. The mapping of
digits to bytes is PRESUMED (log entry 19): R14 itself marks it as general knowledge. -/
def Obligations.WrittenRequestsStandForRequests : Prop :=
  (∀ (digits : Vector (BitVec 4) 32) (i : Nat) (h : i < 16),
    (byteAt (ofHexDigits digits) i).extractLsb' 4 4 = digits[2 * i] ∧
    (byteAt (ofHexDigits digits) i).extractLsb' 0 4 = digits[2 * i + 1]) ∧
  ofHexDigits
      #v[0x5, 0x5, 0x0, 0xe, 0x8, 0x4, 0x0, 0x0, 0xe, 0x2, 0x9, 0xb, 0x4, 0x1, 0xd, 0x4,
         0xa, 0x7, 0x1, 0x6, 0x4, 0x4, 0x6, 0x6, 0x5, 0x5, 0x4, 0x4, 0x0, 0x0, 0x0, 0x0] =
    #v[0x55, 0x0E, 0x84, 0x00, 0xE2, 0x9B, 0x41, 0xD4, 0xA7, 0x16, 0x44, 0x66, 0x55, 0x44, 0x00, 0x00] ∧
  ∀ fill : Lanes,
    (∀ digits, (WrittenRequest.pack digits).instr fill = .pack 16 (ofHexDigits digits)) ∧
    (∀ bytes, ∃ din, (WrittenRequest.unpack bytes).instr fill = .unpack bytes.length din ∧
      ∀ i < min bytes.length 16, bytes[i]? = some (byteAt din i)) ∧
    ∀ len din, (WrittenRequest.unpackLen len din).instr fill = .unpack len din

/-! ### Errors -/

/-- spec/60_exceptions.md R201 to R204, 41_unpack.md R127: which request gets which status, and with what in the
other fields; length before padding, PACK never. -/
def Obligations.ErrorCausesAndPriority : Prop :=
  ∀ (s : State) (i : Instr), s.inReset = false → i.wf s.cfg.lenW = true →
    ∃ r : Response, exec i s = .next { s with inFlight := s.inFlight ++ [r] } ∧
      (r.status = .invalidLength ↔ ∃ len din, i = .unpack len din ∧ len ≠ 16) ∧
      (r.status = .nonzeroPadding ↔ ∃ din, i = .unpack 16 din ∧ byteAt din 15 &&& 0b11111100#8 ≠ 0#8) ∧
      (∀ len din, i = .pack len din → r.status = .ok) ∧
      (∀ len din, i = .unpack len din → r.status = .invalidLength →
        r.dout = zeroLanes ∧ r.errExpected = 16 ∧ r.errActual = len) ∧
      (r.status = .nonzeroPadding → r.dout = zeroLanes ∧ r.errExpected = 0 ∧ r.errActual = 0) ∧
      (r.status = .ok → r.errExpected = 0 ∧ r.errActual = 0)

/-- spec/60_exceptions.md R206: whatever a request did, an error too, the next request gets the response it would
have got without it. -/
def Obligations.NoResponseLeavesATrace : Prop :=
  ∀ (s t : State) (i j : Instr), s.inReset = false → j.wf s.cfg.lenW = true → exec i s = .next t →
    ∃ r : Response, exec j s = .next { s with inFlight := s.inFlight ++ [r] } ∧
      exec j t = .next { t with inFlight := t.inFlight ++ [r] }

/-! ### Laws of the two operations -/

/-- spec/42_laws.md R150: PACK then UNPACK gives `normalize(u)`, and `u` itself when `u` is canonical. -/
def Obligations.RoundTripNormalizes : Prop :=
  ∀ (s t : State) (len : Nat) (u : Lanes), s.inReset = false → t.inReset = false →
    ∃ p : Lanes,
      exec (.pack len u) s = .next { s with inFlight := s.inFlight ++
        [{ status := .ok, dout := p, errExpected := 0, errActual := 0 }] } ∧
      exec (.unpack 16 p) t = .next { t with inFlight := t.inFlight ++
        [{ status := .ok, dout := normalizeIdentifier u, errExpected := 0, errActual := 0 }] } ∧
      (Canonical u → normalizeIdentifier u = u)

/-- spec/42_laws.md R151: UNPACK then PACK gives the valid payload back. -/
def Obligations.ReencodeIsStable : Prop :=
  ∀ (s t : State) (len : Nat) (p : Lanes), s.inReset = false → t.inReset = false → ValidPayload p →
    ∃ u : Lanes,
      exec (.unpack 16 p) s = .next { s with inFlight := s.inFlight ++
        [{ status := .ok, dout := u, errExpected := 0, errActual := 0 }] } ∧
      exec (.pack len u) t = .next { t with inFlight := t.inFlight ++
        [{ status := .ok, dout := p, errExpected := 0, errActual := 0 }] }

/-- spec/42_laws.md R152: canonical identifiers and valid payloads, 2^122 of each, correspond one to one; on all
inputs 64 share a payload. -/
def Obligations.PackAndUnpackAreInverseBijections : Prop :=
  Set.BijOn payloadOf {u | Canonical u} {p | ValidPayload p} ∧
  Set.BijOn identifierOf {p | ValidPayload p} {u | Canonical u} ∧
  Set.InvOn identifierOf payloadOf {u | Canonical u} {p | ValidPayload p} ∧
  {u : Lanes | Canonical u}.ncard = 2 ^ 122 ∧ {p : Lanes | ValidPayload p}.ncard = 2 ^ 122 ∧
  ¬ Function.Injective payloadOf ∧
  ∀ p : Lanes, ValidPayload p → {u : Lanes | payloadOf u = p}.ncard = 64

/-- spec/42_laws.md R153, 20_memory.md R48: the response depends on the request alone, an operation writes nothing
but its response, and the don't-care inputs change nothing. -/
def Obligations.ResponseDependsOnRequestAlone : Prop :=
  (∀ i : Instr, ∃ r : Response, ∀ s : State, s.inReset = false → i.wf s.cfg.lenW = true →
    exec i s = .next { s with inFlight := s.inFlight ++ [r] }) ∧
  (∀ (s : State) (len len' : Nat) (din : Lanes), exec (.pack len din) s = exec (.pack len' din) s) ∧
  (∀ (s : State) (len : Nat) (u v : Lanes), SameFreeBits u v →
    exec (.pack len u) s = exec (.pack len v) s) ∧
  ∀ (s : State) (len : Nat) (din din' : Lanes), len ≠ 16 →
    exec (.unpack len din) s = exec (.unpack len din') s

/-- spec/42_laws.md R154: the source's three identifiers, their payloads, and the way back. -/
def Obligations.SourceVectorsRoundTrip : Prop :=
  ∀ v ∈ ([ (#v[0x55, 0x0E, 0x84, 0x00, 0xE2, 0x9B, 0x41, 0xD4, 0xA7, 0x16, 0x44, 0x66, 0x55, 0x44, 0x00, 0x00],
            #v[0xAA, 0x70, 0x21, 0x00, 0x47, 0xD9, 0xB8, 0x92, 0xA3, 0x89, 0x98, 0xA9, 0x8A, 0x00, 0x00, 0x00]),
           (#v[0, 0, 0, 0, 0, 0, 0x40, 0, 0x80, 0, 0, 0, 0, 0, 0, 0], zeroLanes),
           (#v[0xFF, 0xFF, 0xFF, 0xFF, 0xFF, 0xFF, 0x4F, 0xFF, 0xBF, 0xFF, 0xFF, 0xFF, 0xFF, 0xFF, 0xFF, 0xFF],
            #v[0xFF, 0xFF, 0xFF, 0xFF, 0xFF, 0xFF, 0xFF, 0xFF, 0xFF, 0xFF, 0xFF, 0xFF, 0xFF, 0xFF, 0xFF, 0x03]) ] :
          List (Lanes × Lanes)),
    Canonical v.1 ∧ payloadOf v.1 = v.2 ∧ identifierOf v.2 = v.1

/-! ### Numbers and buses -/

/-- spec/20_memory.md R41: an identifier read as a number, most significant byte first. -/
def Obligations.IdentifierNumberReadsTheScan : Prop :=
  ∀ u : Lanes, identifierNumber u < 2 ^ 128 ∧
    identifierNumber u = ((List.range 16).map fun i => (byteAt u i).toNat * 2 ^ (8 * (15 - i))).sum ∧
    ∀ k < 128, (identifierNumber u).testBit (127 - k) = bitAt u (byteOf k) (bitOf k)

/-- spec/20_memory.md R42: a payload read as a number: its bit `j` is free bit `j`, and 122 to 127 are the
padding. -/
def Obligations.PayloadNumberReadsTheStream : Prop :=
  (∀ p : Lanes,
    payloadNumber p = ((List.range 16).map fun i => (byteAt p i).toNat * 2 ^ (8 * i)).sum ∧
    (∀ j < 128, (payloadNumber p).testBit j = bitAt p (j / 8) (j % 8)) ∧
    (ValidPayload p → payloadNumber p < 2 ^ 122)) ∧
  ∀ (u : Lanes) (j k : Nat), scanOf j = some k →
    (payloadNumber (payloadOf u)).testBit j = bitAt u (byteOf k) (bitOf k)

/-- spec/20_memory.md R43: lane `i` on the flattened bus, a payload on it reads as its number, and an identifier as
its number with the bytes reversed. -/
def Obligations.BusReadsLanesInOrder : Prop :=
  ∀ l : Lanes, (∀ i < 16, (laneBus l).extractLsb' (8 * i) 8 = byteAt l i) ∧
    (laneBus l).toNat = payloadNumber l ∧ (laneBus l).toNat = identifierNumber l.reverse ∧
    busLanes (laneBus l) = l

/-! ### The machine -/

/-- A step whose next event is a request that decodes runs the decoded instruction; around it, the event leaves the
schedule, the outputs stop carrying a response, and the tick moves on. The schedule, the emptying of the outputs and
the tick are the model's choices (log entries 2, 10 and 11). -/
def Obligations.StepRunsTheDecodedRequest : Prop :=
  ∀ (s : State) (r : Request) (es : List Event) (i : Instr),
    s.schedule = .request r :: es → decode s.cfg.lenW r = .ok i →
      step s = exec i { s with schedule := es, rspOut := none, tick := s.tick + 1 }

/-- The steps that accept no request: nothing to come; emitting, with a response pending and out of reset;
reset asserted; reset released. -/
def Obligations.StepsThatAcceptNoRequest : Prop :=
  ∀ (s : State) (es : List Event),
    (s.schedule = [] → step s = .next { s with rspOut := none, tick := s.tick + 1 }) ∧
    (∀ (r : Response) (rest : List Response), s.schedule = .emit :: es → s.inReset = false →
      s.inFlight = r :: rest →
      step s = .next { s with schedule := es, inFlight := rest, rspOut := some r, tick := s.tick + 1 }) ∧
    (s.schedule = .emit :: es → (s.inReset = true ∨ s.inFlight = []) →
      step s = .next { s with schedule := es, rspOut := none, tick := s.tick + 1 }) ∧
    (s.schedule = .assertReset :: es →
      step s = .next { s with
        schedule := es, inReset := true, inFlight := [], rspOut := none, tick := s.tick + 1 }) ∧
    (s.schedule = .releaseReset :: es →
      step s = .next { s with schedule := es, inReset := false, rspOut := none, tick := s.tick + 1 })

/-- No step faults: the block has no trap. A step stops in one case, a request whose length does not fit. That it
stops for a PACK request too is the model's choice (log entry 8): D20 and R246 speak of UNPACK sequences. -/
def Obligations.StepStopsOnlyOnUnpresentableLength : Prop :=
  ∀ s : State, (∀ f, step s ≠ .fault f) ∧
    ∀ x, step s = .refused x ↔
      x = .lengthNotPresentable ∧ ∃ r es, s.schedule = .request r :: es ∧ 2 ^ s.cfg.lenW ≤ r.len

/-- What no step changes: only the two reset events drive reset, only an emission makes the outputs carry a response,
and the pending responses change in three ways only, each tied to its event: a request out of reset adds the one
response it would get alone, an emission moves the oldest to the outputs, and the assertion of reset empties them.
That the outputs carry a response only after an emission step is the model's choice (log entry 10), and that a
request under reset adds none is the model's reading (log entry 5). -/
def Obligations.StepFrame : Prop :=
  ∀ s t : State, step s = .next t →
    t.cfg = s.cfg ∧ t.schedule = s.schedule.tail ∧
    (t.inReset ≠ s.inReset →
      (s.schedule.head? = some .assertReset ∧ t.inReset = true) ∨
      (s.schedule.head? = some .releaseReset ∧ t.inReset = false)) ∧
    (∀ r, t.rspOut = some r → s.schedule.head? = some .emit ∧ s.inFlight = r :: t.inFlight) ∧
    (t.inFlight ≠ s.inFlight →
      (∃ q r, s.schedule.head? = some (.request q) ∧ s.inReset = false ∧
        responsesAlone s.cfg q = [r] ∧ t.inFlight = s.inFlight ++ [r]) ∨
      (∃ r, s.schedule.head? = some .emit ∧ s.inReset = false ∧
        s.inFlight = r :: t.inFlight ∧ t.rspOut = some r) ∨
      (s.schedule.head? = some .assertReset ∧ t.inReset = true ∧ t.inFlight = []))

/-- Every step keeps the invariant: each response in flight or on the outputs is one R67 allows, and while reset is
asserted there is none. At a request under reset the latter rests on the model's reading that it is discarded
(log entry 5). -/
def Obligations.StepKeepsInvariant : Prop :=
  ∀ s t : State, s.Inv → step s = .next t → t.Inv

/-- The invariant holds right after reset, where nothing is in flight and no response is on the outputs. -/
def Obligations.ResetMeetsInvariant : Prop :=
  State.reset.Inv ∧ State.reset.inFlight = [] ∧ State.reset.rspOut = none

/-- spec/20_memory.md R47, R50: for every order of accepted requests and emissions, each request gets exactly one
response, the one it would get alone, and the responses leave in acceptance order. -/
def Obligations.ResponsesLeaveInAcceptanceOrder : Prop :=
  ∀ s : State, s.inReset = false → (∀ e ∈ s.schedule, e.plain s.cfg.lenW) →
    (∃ t : State, runFor s.schedule.length s = .next t ∧
      emitted s.schedule.length s ++ t.inFlight =
        s.inFlight ++ (requestsOf s.schedule).flatMap (responsesAlone s.cfg)) ∧
    ∀ r ∈ requestsOf s.schedule, (responsesAlone s.cfg r).length = 1

/-- As many emissions as there are pending responses answer them all, oldest first. -/
def Obligations.EmissionsAnswerAllPending : Prop :=
  ∀ s : State, s.inReset = false → s.schedule = List.replicate s.inFlight.length .emit →
    emitted s.inFlight.length s = s.inFlight ∧
    ∃ t : State, runFor s.inFlight.length s = .next t ∧ t.inFlight = []

/-- After reset is asserted, nothing the block emits depends on what was in flight before. -/
def Obligations.ResetDiscardsWhatWasInFlight : Prop :=
  ∀ (s : State) (es : List Event) (pending : List Response) (out : Option Response) (n : Nat),
    s.schedule = .assertReset :: es →
      emitted n { s with inFlight := pending, rspOut := out } = emitted n s

/-- While reset is asserted the outputs carry no response, for as long as reset is not released, whatever is
presented. The part about requests accepted under reset is the model's reading (log entry 5). -/
def Obligations.NoResponseUnderReset : Prop :=
  (∀ (s : State) (n : Nat), s.inReset = true → Event.releaseReset ∉ s.schedule → emitted n s = []) ∧
  ∀ (s : State) (i : Instr), s.inReset = true → i.wf s.cfg.lenW = true → exec i s = .next s

/-- The response lines hold the word of the response the outputs carry, and a consumer may read its result only
when its status is `OK`. -/
def Obligations.ResponseLinesCarryTheWord : Prop :=
  (∀ (s : State) (r : Response), s.rspOut = some r → responseLines s = flattenResponse s.cfg.lenW r) ∧
  ∀ (r : Response) (d : Lanes), r.result = some d ↔ r.status = .ok ∧ d = r.dout
end

