-- ==== Sys2Proof/Laws/Lanes.lean ====
section
/-! SUPPORT. Lemmas about bytes and bits of a 16-byte operand and about its bus. -/

namespace Sys2Proof.Machine

theorem byteAt_eq_getElem (l : Lanes) {b : Nat} (hb : b < 16) : byteAt l b = l[b] := by
  simp [byteAt, Vector.getD, hb]

theorem byteAt_getLsbD (l : Lanes) (b i : Nat) : (byteAt l b).getLsbD i = bitAt l b i := rfl

theorem bitAt_of_lane_ge (l : Lanes) {b : Nat} (i : Nat) (hb : 16 ≤ b) : bitAt l b i = false := by
  simp [bitAt, byteAt, Vector.getD, Nat.not_lt.mpr hb]

theorem bitAt_of_bit_ge (l : Lanes) (b : Nat) {i : Nat} (hi : 8 ≤ i) : bitAt l b i = false :=
  BitVec.getLsbD_of_ge _ _ hi

@[simp] theorem bitAt_zeroLanes (b i : Nat) : bitAt zeroLanes b i = false := by
  by_cases hb : b < 16
  · simp [bitAt, byteAt_eq_getElem _ hb]
  · exact bitAt_of_lane_ge _ _ (Nat.not_lt.mp hb)

/-- Two operands that agree on every addressable bit are equal. -/
theorem lanes_ext {l m : Lanes} (h : ∀ b < 16, ∀ i < 8, bitAt l b i = bitAt m b i) : l = m := by
  ext b hb i hi
  simpa [bitAt, byteAt_eq_getElem _ hb, BitVec.getLsbD_eq_getElem hi] using h b hb i hi

theorem getLsbD_withBit (v : Byte) (i : Nat) (x : Bool) {j : Nat} (hi : i < 8) (hj : j < 8) :
    (withBit v i x).getLsbD j = if j = i then x else v.getLsbD j := by
  have h1 : (1#8 <<< i).getLsbD j = decide (j = i) := by
    have key : ∀ i < 8, ∀ j < 8, (1#8 <<< i).getLsbD j = decide (j = i) := by decide
    exact key i hi j hj
  cases x <;> by_cases h : j = i <;>
    simp only [withBit, Bool.false_eq_true, if_true, if_false, BitVec.getLsbD_or, BitVec.getLsbD_and,
      BitVec.getLsbD_not, h1, h] <;> simp [hi, hj]

/-- Everything a bit write does: the written bit reads as written, every other bit as before. -/
theorem bitAt_putBit (l : Lanes) {b i : Nat} (x : Bool) (hb : b < 16) (hi : i < 8) (b' i' : Nat) :
    bitAt (putBit l b i x) b' i' = if b' = b ∧ i' = i then x else bitAt l b' i' := by
  by_cases hb' : b' < 16
  · by_cases hi' : i' < 8
    · by_cases h : b' = b
      · subst h
        simp [bitAt, putBit, byteAt_eq_getElem _ hb', getLsbD_withBit _ _ _ hi hi']
      · have h' : ¬ b = b' := fun e => h e.symm
        simp [bitAt, putBit, byteAt_eq_getElem _ hb', h, h']
    · rw [bitAt_of_bit_ge _ _ (Nat.not_lt.mp hi'), bitAt_of_bit_ge _ _ (Nat.not_lt.mp hi')]
      rw [if_neg]; omega
  · rw [bitAt_of_lane_ge _ _ (Nat.not_lt.mp hb'), bitAt_of_lane_ge _ _ (Nat.not_lt.mp hb')]
    rw [if_neg]; omega

/-- Bit `i` of `rev8(x)` is bit `7 - i` of `x` (spec/00_scope.md R11). -/
theorem getLsbD_rev8 (x : Byte) {i : Nat} (hi : i < 8) : (rev8 x).getLsbD i = x.getLsbD (7 - i) := by
  rw [rev8, BitVec.getLsbD_reverse, BitVec.getMsbD, decide_eq_true hi, Bool.true_and]

theorem getElem_rev8 (x : Byte) {i : Nat} (hi : i < 8) : (rev8 x)[i] = x[7 - i] := by
  rw [← BitVec.getLsbD_eq_getElem hi, getLsbD_rev8 x hi, BitVec.getLsbD_eq_getElem (by omega)]

/-- Bit `n` of the bus is bit `n mod 8` of lane `n div 8` (spec/20_memory.md R43). -/
theorem getLsbD_laneBus (l : Lanes) {n : Nat} (hn : n < 128) :
    (laneBus l).getLsbD n = bitAt l (n / 8) (n % 8) := by
  have hb : n / 8 < 16 := by omega
  rw [bitAt, byteAt_eq_getElem _ hb]
  simp only [laneBus, BitVec.getLsbD_append]
  interval_cases n <;> rfl

theorem bitAt_busLanes (w : BitVec 128) {b i : Nat} (hb : b < 16) (hi : i < 8) :
    bitAt (busLanes w) b i = w.getLsbD (8 * b + i) := by
  rw [bitAt, byteAt_eq_getElem _ hb]
  simp [busLanes, hi]

@[simp] theorem busLanes_laneBus (l : Lanes) : busLanes (laneBus l) = l := by
  apply lanes_ext
  intro b hb i hi
  rw [bitAt_busLanes _ hb hi, getLsbD_laneBus _ (by omega)]
  congr 1 <;> omega

@[simp] theorem laneBus_busLanes (w : BitVec 128) : laneBus (busLanes w) = w := by
  apply BitVec.eq_of_getLsbD_eq
  intro n hn
  rw [getLsbD_laneBus _ hn, bitAt_busLanes _ (by omega) (by omega)]
  congr 1; omega

end Sys2Proof.Machine
end

