-- ==== Sys2Proof/Laws/Decode.lean ====
section
/-! SUPPORT. The fields of the flat request word, in both directions. -/

namespace Sys2Proof

open Sys2Proof.Machine

theorem encodeFields_wf (lenW : Nat) (i : Instr) : (encodeFields i).wf lenW = i.wf lenW := by
  cases i <;> rfl

theorem unflattenRequest_flattenRequest {lenW : Nat} {r : Request} (h : r.wf lenW = true) :
    unflattenRequest lenW (flattenRequest lenW r) = r := by
  have hlen : r.len < 2 ^ lenW := by simpa [Request.wf] using h
  have hop : (flattenRequest lenW r).extractLsb' (128 + lenW) 1 = r.op := by
    apply BitVec.eq_of_getLsbD_eq
    intro n hn
    have hn0 : n = 0 := by omega
    subst hn0
    simp only [flattenRequest, BitVec.getLsbD_extractLsb', BitVec.getLsbD_append]
    simp
  have hl : (flattenRequest lenW r).extractLsb' 128 lenW = BitVec.ofNat lenW r.len := by
    apply BitVec.eq_of_getLsbD_eq
    intro n hn
    simp [flattenRequest, BitVec.getLsbD_append, hn]
  have hd : (flattenRequest lenW r).extractLsb' 0 128 = laneBus r.din := by
    apply BitVec.eq_of_getLsbD_eq
    intro n hn
    simp [flattenRequest, BitVec.getLsbD_append, hn]
  cases r
  simp_all [unflattenRequest, Nat.mod_eq_of_lt]

theorem flattenRequest_unflattenRequest {lenW : Nat} (w : BitVec (1 + lenW + 128)) :
    flattenRequest lenW (unflattenRequest lenW w) = w := by
  apply BitVec.eq_of_getLsbD_eq
  intro n hn
  simp only [flattenRequest, unflattenRequest, laneBus_busLanes, BitVec.getLsbD_append,
    BitVec.ofNat_toNat, BitVec.setWidth_eq, BitVec.getLsbD_extractLsb']
  split_ifs with h1 h2
  · simp [h1]
  · have : n - 128 < lenW := by omega
    simp [h2, Nat.add_sub_cancel' (Nat.not_lt.mp h1)]
  · have e1 : n - 128 - lenW = 0 := by omega
    have e2 : 128 + lenW = n := by omega
    simp [e1, e2]

end Sys2Proof
end

