-- ==== Sys2Proof/Laws/Numbers.lean ====
section
/-! SUPPORT. The bits of a number given as a sum of bytes at rising weights. -/

namespace Sys2Proof.Machine

/-- A sum of bytes at rising weights is below the next weight, and holds each byte's bits in its place. -/
theorem byteSum_spec (f : Nat → Byte) (n : Nat) :
    ((List.range n).map fun i => (f i).toNat * 2 ^ (8 * i)).sum < 2 ^ (8 * n) ∧
    ∀ j, ((List.range n).map fun i => (f i).toNat * 2 ^ (8 * i)).sum.testBit j =
      (decide (j < 8 * n) && (f (j / 8)).getLsbD (j % 8)) := by
  induction n with
  | zero => simp
  | succ n ih =>
    obtain ⟨hlt, hbit⟩ := ih
    have hf : (f n).toNat < 2 ^ 8 := (f n).isLt
    rw [List.range_succ, List.map_append, List.sum_append, List.map_singleton, List.sum_singleton, Nat.add_comm,
      Nat.mul_comm (f n).toNat]
    refine ⟨?_, fun j => ?_⟩
    · calc 2 ^ (8 * n) * (f n).toNat + ((List.range n).map fun i => (f i).toNat * 2 ^ (8 * i)).sum
          < 2 ^ (8 * n) * (f n).toNat + 2 ^ (8 * n) := by omega
        _ = 2 ^ (8 * n) * ((f n).toNat + 1) := by ring
        _ ≤ 2 ^ (8 * n) * 2 ^ 8 := Nat.mul_le_mul_left _ hf
        _ = 2 ^ (8 * (n + 1)) := by ring
    · rw [Nat.testBit_two_pow_mul_add _ hlt, hbit]
      by_cases h : j < 8 * n
      · simp [h, show j < 8 * (n + 1) by omega]
      · simp only [h, if_false]
        rw [BitVec.testBit_toNat]
        by_cases h2 : j < 8 * (n + 1)
        · rw [show j / 8 = n by omega, show j - 8 * n = j % 8 by omega]
          simp [h2]
        · rw [BitVec.getLsbD_of_ge _ _ (by omega)]
          simp [h2]

end Sys2Proof.Machine
end

