-- ==== Sys2Proof/Laws/Scan.lean ====
section
/-! SUPPORT. What the PACK scan and the UNPACK scan leave in every bit of their results. -/

namespace Sys2Proof.Machine

/-! ### The numbering of the free positions -/

theorem freeBelow_succ (k : Nat) :
    freeBelow (k + 1) = freeBelow k + if isFixed (byteOf k) (bitOf k) then 0 else 1 := by
  simp only [freeBelow, List.range_succ, List.filter_append, List.length_append]
  cases h : isFixed (byteOf k) (bitOf k) <;> simp [h]

theorem freeBelow_last : freeBelow 128 = 122 := by decide +kernel

/-- The closed form of R27 is the walk's numbering, and `scanOf` undoes it. -/
theorem scanOf_freeBelow : ∀ k < 128, isFixed (byteOf k) (bitOf k) = false →
    freeBelow k < 122 ∧ scanOf (freeBelow k) = some k ∧ freeIndex k = some (freeBelow k) := by
  decide +kernel

theorem freeIndex_of_isFixed : ∀ k < 128, isFixed (byteOf k) (bitOf k) = true → freeIndex k = none := by
  decide +kernel

theorem isFixed_eq_fixedValue_isSome : ∀ k < 128,
    isFixed (byteOf k) (bitOf k) = (fixedValue (byteOf k) (bitOf k)).isSome := by
  decide +kernel

/-- `scanOf` and `freeIndex` are inverse on the 122 stream positions. -/
theorem freeIndex_scanOf {j k : Nat} (h : scanOf j = some k) :
    j < 122 ∧ k < 128 ∧ freeIndex k = some j ∧ isFixed (byteOf k) (bitOf k) = false := by
  have key : ∀ j < 122, ∀ k ∈ scanOf j,
      k < 128 ∧ freeIndex k = some j ∧ isFixed (byteOf k) (bitOf k) = false := by decide +kernel
  have hj : j < 122 := by
    by_contra hj
    have : scanOf j = none := by simp only [scanOf]; split_ifs <;> first | omega | rfl
    simp [this] at h
  exact ⟨hj, key j hj k h⟩

theorem scanOf_eq_none {j : Nat} (h : 122 ≤ j) : scanOf j = none := by
  simp only [scanOf]; split_ifs <;> first | omega | rfl

/-- `freeIndex` names a stream position, and `scanOf` undoes it. -/
theorem scanOf_freeIndex {j k : Nat} (h : freeIndex k = some j) :
    k < 128 ∧ j < 122 ∧ scanOf j = some k := by
  have key : ∀ k < 128, ∀ j ∈ freeIndex k, j < 122 ∧ scanOf j = some k := by decide +kernel
  have hk : k < 128 := by
    by_contra hk
    have : freeIndex k = none := by simp only [freeIndex]; split_ifs <;> first | omega | rfl
    simp [this] at h
  exact ⟨hk, key k hk j h⟩

/-- A free position has a stream position. -/
theorem exists_freeIndex {k : Nat} (hk : k < 128) (h : isFixed (byteOf k) (bitOf k) = false) :
    ∃ j, freeIndex k = some j :=
  ⟨_, (scanOf_freeBelow k hk h).2.2⟩

/-! ### PACK -/

/-- The PACK scan after its first `m` turns. -/
theorem packPrefix_spec (u : Lanes) : ∀ m ≤ 128,
    ((List.range m).foldl (packTurn u) (0, zeroLanes)).1 = freeBelow m ∧
    ∀ j < 128, bitAt ((List.range m).foldl (packTurn u) (0, zeroLanes)).2 (j / 8) (j % 8) =
      if j < freeBelow m then ((scanOf j).map fun k => bitAt u (byteOf k) (bitOf k)).getD false else false := by
  intro m
  induction m with
  | zero => intro _; simp [freeBelow]
  | succ m ih =>
    intro hm
    obtain ⟨hn, hb⟩ := ih (by omega)
    rw [List.range_succ, List.foldl_append, List.foldl_cons, List.foldl_nil, freeBelow_succ]
    cases hf : isFixed (byteOf m) (bitOf m)
    · obtain ⟨hlt, hscan, -⟩ := scanOf_freeBelow m (by omega) hf
      simp only [packTurn, hf, hn, Bool.false_eq_true, if_false, true_and]
      intro j hj
      rw [bitAt_putBit _ _ (by omega) (by omega), hb j hj]
      by_cases h : j = freeBelow m
      · simp [h, hscan]
      · have h1 : ¬ (j / 8 = freeBelow m / 8 ∧ j % 8 = freeBelow m % 8) := by omega
        have h2 : j < freeBelow m + 1 ↔ j < freeBelow m := by omega
        simp only [h1, h2, if_false]
    · simpa [packTurn, hf, hn] using hb

/-- PACK appends exactly 122 free bits (spec/40_pack.md R101). -/
theorem packScan_count (u : Lanes) : (packScan u).1 = 122 := by
  rw [packScan, (packPrefix_spec u 128 le_rfl).1, freeBelow_last]

/-- Everything PACK's result holds: stream position `j` holds the free bit of that number, a padding position 0. -/
theorem bitAt_payloadOf (u : Lanes) {j : Nat} (hj : j < 128) :
    bitAt (payloadOf u) (j / 8) (j % 8) =
      ((scanOf j).map fun k => bitAt u (byteOf k) (bitOf k)).getD false := by
  rw [payloadOf, packScan, (packPrefix_spec u 128 le_rfl).2 j hj, freeBelow_last]
  split_ifs with h
  · rfl
  · simp [scanOf_eq_none (Nat.not_lt.mp h)]

/-! ### UNPACK -/

theorem scanPosition_eq_iff {k m : Nat} : (byteOf k = byteOf m ∧ bitOf k = bitOf m) ↔ k = m := by
  unfold byteOf bitOf; omega

/-- The UNPACK scan after its first `m` turns. -/
theorem unpackPrefix_spec (p : Lanes) : ∀ m ≤ 128,
    ((List.range m).foldl (unpackTurn p) (0, zeroLanes)).1 = freeBelow m ∧
    ∀ k < m, bitAt ((List.range m).foldl (unpackTurn p) (0, zeroLanes)).2 (byteOf k) (bitOf k) =
      (fixedValue (byteOf k) (bitOf k)).getD
        (((freeIndex k).map fun j => bitAt p (j / 8) (j % 8)).getD false) := by
  intro m
  induction m with
  | zero => intro _; simp [freeBelow]
  | succ m ih =>
    intro hm
    obtain ⟨hn, hb⟩ := ih (by omega)
    have hfix := isFixed_eq_fixedValue_isSome m (by omega)
    have hbyte : byteOf m < 16 := by unfold byteOf; omega
    have hbit : bitOf m < 8 := by unfold bitOf; omega
    rw [List.range_succ, List.foldl_append, List.foldl_cons, List.foldl_nil, freeBelow_succ]
    cases hv : fixedValue (byteOf m) (bitOf m) with
    | some v =>
      rw [hv] at hfix
      refine ⟨by simp [unpackTurn, hv, hn, hfix], fun k hk => ?_⟩
      simp only [unpackTurn, hv]
      simp only [bitAt_putBit _ _ hbyte hbit, scanPosition_eq_iff]
      by_cases h : k = m
      · simp [h, hv]
      · simp only [h, if_false, hb k (by omega)]
    | none =>
      rw [hv] at hfix
      obtain ⟨-, -, hfree⟩ := scanOf_freeBelow m (by omega) hfix
      refine ⟨by simp [unpackTurn, hv, hn, hfix], fun k hk => ?_⟩
      simp only [unpackTurn, hv, hn]
      simp only [bitAt_putBit _ _ hbyte hbit, scanPosition_eq_iff]
      by_cases h : k = m
      · simp [h, hv, hfree]
      · simp only [h, if_false, hb k (by omega)]

/-- UNPACK reads exactly 122 stream bits (spec/41_unpack.md R124). -/
theorem unpackScan_count (p : Lanes) : (unpackScan p).1 = 122 := by
  rw [unpackScan, (unpackPrefix_spec p 128 le_rfl).1, freeBelow_last]

/-- Everything UNPACK's result holds: a fixed position the table's value, a free one its stream bit. -/
theorem bitAt_identifierOf (p : Lanes) {k : Nat} (hk : k < 128) :
    bitAt (identifierOf p) (byteOf k) (bitOf k) =
      (fixedValue (byteOf k) (bitOf k)).getD
        (((freeIndex k).map fun j => bitAt p (j / 8) (j % 8)).getD false) :=
  (unpackPrefix_spec p 128 le_rfl).2 k hk

/-- Operands that agree at every scan position are equal. -/
theorem lanes_ext_scan {l m : Lanes}
    (h : ∀ k < 128, bitAt l (byteOf k) (bitOf k) = bitAt m (byteOf k) (bitOf k)) : l = m := by
  refine lanes_ext fun b hb i hi => ?_
  have hk := h (8 * b + (7 - i)) (by omega)
  have e1 : byteOf (8 * b + (7 - i)) = b := by unfold byteOf; omega
  have e2 : bitOf (8 * b + (7 - i)) = i := by unfold bitOf; omega
  rwa [e1, e2] at hk

/-- Operands that agree at every stream position are equal. -/
theorem lanes_ext_stream {l m : Lanes}
    (h : ∀ j < 128, bitAt l (j / 8) (j % 8) = bitAt m (j / 8) (j % 8)) : l = m := by
  refine lanes_ext fun b hb i hi => ?_
  have hj := h (8 * b + i) (by omega)
  have e1 : (8 * b + i) / 8 = b := by omega
  have e2 : (8 * b + i) % 8 = i := by omega
  rwa [e1, e2] at hj

end Sys2Proof.Machine
end

