-- ==== Sys2Proof/Laws/State.lean ====
section
/-! SUPPORT. One lemma per field per update of the state. -/

namespace Sys2Proof.Machine

variable (s : State)

@[simp] theorem advance_cfg : (advance s).cfg = s.cfg := rfl
@[simp] theorem advance_schedule : (advance s).schedule = s.schedule.tail := rfl
@[simp] theorem advance_inReset : (advance s).inReset = s.inReset := rfl
@[simp] theorem advance_inFlight : (advance s).inFlight = s.inFlight := rfl
@[simp] theorem advance_rspOut : (advance s).rspOut = none := rfl
@[simp] theorem advance_tick : (advance s).tick = s.tick + 1 := rfl

@[simp] theorem enterReset_cfg : (enterReset s).cfg = s.cfg := rfl
@[simp] theorem enterReset_schedule : (enterReset s).schedule = s.schedule := rfl
@[simp] theorem enterReset_inReset : (enterReset s).inReset = true := rfl
@[simp] theorem enterReset_inFlight : (enterReset s).inFlight = [] := rfl
@[simp] theorem enterReset_rspOut : (enterReset s).rspOut = none := rfl
@[simp] theorem enterReset_tick : (enterReset s).tick = s.tick := rfl

@[simp] theorem leaveReset_cfg : (leaveReset s).cfg = s.cfg := rfl
@[simp] theorem leaveReset_schedule : (leaveReset s).schedule = s.schedule := rfl
@[simp] theorem leaveReset_inReset : (leaveReset s).inReset = false := rfl
@[simp] theorem leaveReset_inFlight : (leaveReset s).inFlight = s.inFlight := rfl
@[simp] theorem leaveReset_rspOut : (leaveReset s).rspOut = s.rspOut := rfl
@[simp] theorem leaveReset_tick : (leaveReset s).tick = s.tick := rfl

@[simp] theorem withResponse_cfg (r : Response) : (s.withResponse r).cfg = s.cfg := rfl
@[simp] theorem withResponse_schedule (r : Response) : (s.withResponse r).schedule = s.schedule := rfl
@[simp] theorem withResponse_inReset (r : Response) : (s.withResponse r).inReset = s.inReset := rfl
@[simp] theorem withResponse_inFlight (r : Response) :
    (s.withResponse r).inFlight = s.inFlight ++ [r] := rfl
@[simp] theorem withResponse_rspOut (r : Response) : (s.withResponse r).rspOut = s.rspOut := rfl
@[simp] theorem withResponse_tick (r : Response) : (s.withResponse r).tick = s.tick := rfl

@[simp] theorem presentFirst_cfg (r : Request) : (presentFirst r s).cfg = s.cfg := rfl
@[simp] theorem presentFirst_schedule (r : Request) :
    (presentFirst r s).schedule = .request r :: s.schedule := rfl
@[simp] theorem presentFirst_inReset (r : Request) : (presentFirst r s).inReset = false := rfl
@[simp] theorem presentFirst_inFlight (r : Request) : (presentFirst r s).inFlight = s.inFlight := rfl
@[simp] theorem presentFirst_rspOut (r : Request) : (presentFirst r s).rspOut = s.rspOut := rfl
@[simp] theorem presentFirst_tick (r : Request) : (presentFirst r s).tick = s.tick := rfl

@[simp] theorem idle_cfg (c : Config) : (State.idle c).cfg = c := rfl
@[simp] theorem idle_schedule (c : Config) : (State.idle c).schedule = [] := rfl
@[simp] theorem idle_inReset (c : Config) : (State.idle c).inReset = false := rfl
@[simp] theorem idle_inFlight (c : Config) : (State.idle c).inFlight = [] := rfl
@[simp] theorem idle_rspOut (c : Config) : (State.idle c).rspOut = none := rfl

end Sys2Proof.Machine
end

