-- ==== Sys2Proof/Laws/Ops.lean ====
section
/-! SUPPORT. What each shared operation, each meaning and one event can do, said once. -/

namespace Sys2Proof.Machine

/-! ### Responding -/

theorem respond_of_not_inReset {s : State} (h : s.inReset = false) (st : Status) (d : Lanes) (e a : Nat) :
    respond st d e a s = s.withResponse ⟨st, d, e, a⟩ := by
  simp [respond, h, State.withResponse]

theorem respond_of_inReset {s : State} (h : s.inReset = true) (st : Status) (d : Lanes) (e a : Nat) :
    respond st d e a s = s := by
  simp [respond, h]

/-- The response the two operations give, as one function of the instruction. -/
def answer : Instr → Response
  | .pack _ din => ⟨.ok, payloadOf din, 0, 0⟩
  | .unpack len din =>
    if len ≠ 16 then ⟨.invalidLength, zeroLanes, 16, len⟩
    else if paddingZero din then ⟨.ok, identifierOf din, 0, 0⟩
    else ⟨.nonzeroPadding, zeroLanes, 0, 0⟩

/-- Everything `exec` does on a request that can be presented: its one response, or nothing under reset. -/
theorem exec_of_wf {i : Instr} {s : State} (hi : i.wf s.cfg.lenW = true) :
    exec i s = .next (if s.inReset then s else s.withResponse (answer i)) := by
  cases i with
  | pack len din => cases h : s.inReset <;> simp [exec, execPack, respond, answer, h, State.withResponse]
  | unpack len din =>
    have hlen : len < 2 ^ s.cfg.lenW := by simpa [Instr.wf] using hi
    simp only [exec, execUnpack, if_pos hlen, expectedLength, answer, raiseInvalidLength, raiseNonZeroPadding]
    cases h : s.inReset
    · simp only [respond_of_not_inReset h, Bool.false_eq_true, if_false]
      split_ifs <;> rfl
    · simp only [respond_of_inReset h, if_true]
      split_ifs <;> rfl

/-- PACK runs whatever its length (spec/40_pack.md R104). -/
theorem exec_pack {len : Nat} {din : Lanes} {s : State} :
    exec (.pack len din) s = .next (if s.inReset then s else s.withResponse ⟨.ok, payloadOf din, 0, 0⟩) := by
  cases h : s.inReset <;> simp [exec, execPack, respond, h, State.withResponse]

/-- UNPACK stops only on a length that no request can carry. -/
theorem exec_unpack_of_not_wf {len : Nat} {din : Lanes} {s : State} (h : ¬ len < 2 ^ s.cfg.lenW) :
    exec (.unpack len din) s = .refused .lengthNotPresentable := by
  simp [exec, execUnpack, h]

/-! ### Events -/

theorem decode_of_wf {lenW : Nat} {r : Request} (h : r.wf lenW = true) :
    ∃ i, decode lenW r = .ok i ∧ i.wf lenW = true := by
  have h' : r.len < 2 ^ lenW := by simpa [Request.wf] using h
  by_cases hop : r.op = 0#1
  · exact ⟨.pack r.len r.din, by simp [decode, h', hop], by simp [Instr.wf, h']⟩
  · exact ⟨.unpack r.len r.din, by simp [decode, h', hop], by simp [Instr.wf, h']⟩

theorem wf_of_decode {lenW : Nat} {r : Request} {i : Instr} (h : decode lenW r = .ok i) :
    r.wf lenW = true ∧ i.wf lenW = true := by
  by_cases h' : r.len < 2 ^ lenW
  · rw [decode, if_pos h'] at h
    cases h
    by_cases hop : r.op = 0#1 <;> simp [Request.wf, Instr.wf, h', hop]
  · simp [decode, h'] at h

theorem decode_of_not_wf {lenW : Nat} {r : Request} (h : r.wf lenW = false) :
    decode lenW r = .error .lengthNotPresentable := by
  have h' : ¬ r.len < 2 ^ lenW := by simpa [Request.wf] using h
  simp [decode, h']

theorem emitOldest_of_inReset {s : State} (h : s.inReset = true) :
    emitOldest s = { s with rspOut := none } := by
  simp [emitOldest, h]

theorem emitOldest_nil {s : State} (h : s.inFlight = []) : emitOldest s = { s with rspOut := none } := by
  cases hr : s.inReset <;> simp [emitOldest, h, hr]

theorem emitOldest_cons {s : State} {r : Response} {rest : List Response} (hr : s.inReset = false)
    (h : s.inFlight = r :: rest) : emitOldest s = { s with inFlight := rest, rspOut := some r } := by
  simp [emitOldest, h, hr]

/-- Everything one event can do. -/
theorem perform_cases (e : Event) (s : State) :
    (∃ r, e = .request r ∧ r.wf s.cfg.lenW = false ∧ perform e s = .refused .lengthNotPresentable) ∨
    (∃ r i, e = .request r ∧ decode s.cfg.lenW r = .ok i ∧ i.wf s.cfg.lenW = true ∧
      perform e s = .next (if s.inReset then s else s.withResponse (answer i))) ∨
    (e = .emit ∧ perform e s = .next (emitOldest s)) ∨
    (e = .assertReset ∧ perform e s = .next (enterReset s)) ∨
    (e = .releaseReset ∧ perform e s = .next (leaveReset s)) := by
  cases e with
  | request r =>
    cases h : r.wf s.cfg.lenW
    · exact .inl ⟨r, rfl, h, by simp [perform, acceptRequest, decode_of_not_wf h, refusalOf]⟩
    · obtain ⟨i, hi, hwf⟩ := decode_of_wf h
      exact .inr (.inl ⟨r, i, rfl, hi, hwf, by simp only [perform, acceptRequest, hi, exec_of_wf hwf]⟩)
  | emit => exact .inr (.inr (.inl ⟨rfl, rfl⟩))
  | assertReset => exact .inr (.inr (.inr (.inl ⟨rfl, rfl⟩)))
  | releaseReset => exact .inr (.inr (.inr (.inr ⟨rfl, rfl⟩)))

/-- An idle block answers a request that decodes with its one response. -/
theorem responsesAlone_of_decode {c : Config} {r : Request} {i : Instr} (h : decode c.lenW r = .ok i) :
    responsesAlone c r = [answer i] := by
  have hw := (wf_of_decode h).2
  simp [responsesAlone, acceptRequest, h, exec_of_wf (s := State.idle c) (i := i) hw]

theorem step_nil {s : State} (h : s.schedule = []) : step s = .next (advance s) := by
  simp [step, nextEvent, h]

theorem step_cons {s : State} {e : Event} {es : List Event} (h : s.schedule = e :: es) :
    step s = perform e (advance s) := by
  simp [step, nextEvent, h]

end Sys2Proof.Machine
end

