-- ==== Sys2Proof/Laws/PerInstr.lean ====
section
/-! SUPPORT. Statements made for every constructor of Instr. -/

namespace Sys2Proof.Laws.FieldsRoundTrip

/-- The request that stands for an instruction whose length fits decodes to that instruction. -/
def Statement (i : Instr) : Prop := ∀ lenW, i.wf lenW = true → decode lenW (encodeFields i) = .ok i

theorem pack (len : Nat) (din : Lanes) : Statement (.pack len din) := by
  intro lenW h
  have h' : len < 2 ^ lenW := by simpa [Instr.wf] using h
  simp [decode, encodeFields, h']

theorem unpack (len : Nat) (din : Lanes) : Statement (.unpack len din) := by
  intro lenW h
  have h' : len < 2 ^ lenW := by simpa [Instr.wf] using h
  simp [decode, encodeFields, h']

end Sys2Proof.Laws.FieldsRoundTrip
end

