-- ==== Sys2Proof/Tests/Slice0.lean ====
section
/-! SUPPORT. Tests against the spec's written values, and a witness for the hypotheses of each statement. -/

namespace Sys2Proof.Tests

open Sys2Proof Sys2Proof.Machine

/-! ### Well-formedness: each check refuses an ill-formed term, at the boundary -/

theorem test_wf_refuses_long_unpack :
    Instr.wf 8 (.unpack 256 zeroLanes) = false ∧ Instr.wf 8 (.unpack 255 zeroLanes) = true := by decide

theorem test_wf_refuses_long_pack :
    Instr.wf 5 (.pack 32 zeroLanes) = false ∧ Instr.wf 5 (.pack 31 zeroLanes) = true := by decide

theorem test_wf_refuses_long_request :
    Request.wf 5 ⟨1, 32, zeroLanes⟩ = false ∧ Request.wf 5 ⟨1, 31, zeroLanes⟩ = true := by decide

/-! ### Decoding: words written out from R60 -/

/-- 95_test_vectors.md P1, request 1 (`LEN_W = 8`). -/
theorem test_decode_pack_word : decodeWord 8 0x01000004455664416A7D4419BE200840E55 =
    .ok (.pack 16 #v[0x55, 0x0E, 0x84, 0x00, 0xE2, 0x9B, 0x41, 0xD4,
                     0xA7, 0x16, 0x44, 0x66, 0x55, 0x44, 0x00, 0x00]) := by decide +kernel

/-- Bit by bit at `LEN_W = 5`: `op` = 1 at bit 133, `len` = 10001 at 132..128, lane 15 = 0x80, lane 0 = 0x01. -/
theorem test_decode_unpack_word :
    decodeWord 5 (0b1 * 2 ^ 133 + 0b10001 * 2 ^ 128 + 0b10000000 * 2 ^ 120 + 0b00000001) =
      .ok (.unpack 17 #v[0x01, 0, 0, 0, 0, 0, 0, 0, 0, 0, 0, 0, 0, 0, 0, 0x80]) := by decide +kernel

theorem test_decode_refuses_wide_word : decodeWord 8 (2 ^ 137) = .error .wordTooWide := by decide +kernel

/-- 95_test_vectors.md P3, request 1. -/
theorem test_encode_unpack_word :
    (encode 8 (.unpack 15 #v[0, 0, 0, 0, 0, 0, 0, 0, 0, 0, 0, 0, 0, 0, 0, 0xFF])).toNat =
      0x10FFF000000000000000000000000000000 := by decide +kernel

theorem test_decodeTableWord :
    decodeTableWord 8 0 = some (.pack 0 zeroLanes) ∧ decodeTableWord 8 1 = some (.unpack 0 zeroLanes) := by
  decide +kernel

/-- 95_test_vectors.md P3, response 1: `INVALID_LENGTH expected=16 actual=15`. -/
theorem test_response_word : (flattenResponse 8 ⟨.invalidLength, zeroLanes, 16, 15⟩).toNat =
    0x03C4100000000000000000000000000000000 := by decide +kernel

/-! ### One step each -/

/-- The response a request leaves in flight when it is the first after reset. -/
def firstResponse (r : Request) : Option (List Response) :=
  match step (presentFirst r State.reset) with
  | .next t => some t.inFlight
  | .fault _ => none
  | .refused _ => none

/-- 95_test_vectors.md V-P7, with a `len` that is not 16. -/
theorem test_pack_mixed_pattern :
    firstResponse ⟨0, 3, #v[0x01, 0x23, 0x45, 0x67, 0x89, 0xab, 0xcd, 0xef,
                            0x01, 0x23, 0x45, 0x67, 0x89, 0xab, 0xcd, 0xef]⟩ =
      some [⟨.ok, #v[0x80, 0xC4, 0xA2, 0xE6, 0x91, 0xD5, 0x7B, 0x0F,
                     0x12, 0x8B, 0x9A, 0x47, 0x56, 0xCF, 0xDE, 0x03], 0, 0⟩] := by decide +kernel

/-- 95_test_vectors.md V-P6: only the fixed positions set, each to the inverse of its canonical value. -/
theorem test_pack_discards_fixed_bits :
    firstResponse ⟨0, 16, #v[0, 0, 0, 0, 0, 0, 0xb0, 0, 0x40, 0, 0, 0, 0, 0, 0, 0]⟩ =
      some [⟨.ok, zeroLanes, 0, 0⟩] := by decide +kernel

/-- 95_test_vectors.md V-U5. -/
theorem test_unpack_mixed_pattern :
    firstResponse ⟨1, 16, #v[0x00, 0x01, 0x02, 0x03, 0x04, 0x05, 0x06, 0x07,
                             0x08, 0x09, 0x0A, 0x0B, 0x0C, 0x0D, 0x0E, 0x03]⟩ =
      some [⟨.ok, #v[0x00, 0x80, 0x40, 0xc0, 0x20, 0xa0, 0x46, 0x0e,
                     0x80, 0x42, 0x41, 0x43, 0x40, 0xc2, 0xc1, 0xc3], 0, 0⟩] := by decide +kernel

/-- 95_test_vectors.md V-U13 (length before padding) and V-U9 (never masked). -/
theorem test_unpack_errors :
    firstResponse ⟨1, 15, #v[0, 0, 0, 0, 0, 0, 0, 0, 0, 0, 0, 0, 0, 0, 0, 0xFF]⟩ =
      some [⟨.invalidLength, zeroLanes, 16, 15⟩] ∧
    firstResponse ⟨1, 16, Vector.replicate 16 0xFF⟩ = some [⟨.nonzeroPadding, zeroLanes, 0, 0⟩] := by
  decide +kernel

/-- The word of the opcode table runs as the first request after reset. -/
theorem test_withFetchWord_runs :
    step (State.reset.withFetchWord 8 1) =
      .next { State.reset with inFlight := [⟨.invalidLength, zeroLanes, 16, 0⟩], tick := 1 } := by rfl

/-! ### Witnesses: concrete states and operands that meet the hypotheses of each statement -/

/-- A valid payload at the boundary of byte 15. -/
def lastValid : Lanes := #v[0, 0, 0, 0, 0, 0, 0, 0, 0, 0, 0, 0, 0, 0, 0, 0x03]

/-- Payloads with the lowest and with the highest padding bit set. -/
def lowPadding : Lanes := #v[0, 0, 0, 0, 0, 0, 0, 0, 0, 0, 0, 0, 0, 0, 0, 0x04]
def highPadding : Lanes := #v[0, 0, 0, 0, 0, 0, 0, 0, 0, 0, 0, 0, 0, 0, 0, 0x80]

/-- The canonical identifier with all free bits zero, and the identifier with only its fixed bits inverted. -/
def zeroIdentifier : Lanes := #v[0, 0, 0, 0, 0, 0, 0x40, 0, 0x80, 0, 0, 0, 0, 0, 0, 0]
def invertedFixed : Lanes := #v[0, 0, 0, 0, 0, 0, 0xb0, 0, 0x40, 0, 0, 0, 0, 0, 0, 0]

/-- Reset with a schedule. -/
def withSchedule (es : List Event) : State := { State.reset with schedule := es }

theorem witness_FixedBitReads :
    isFixed 6 4 = true ∧ isFixed 6 3 = false ∧ isFixed 8 6 = true ∧ isFixed 8 5 = false ∧
    (fixedBitTable.map fun e => (e.byteIndex.val, e.mask.getLsbD 7)) = [(6, true), (8, true)] := by decide

theorem witness_FreeIndexCorrespondence :
    freeIndex 47 = some 47 ∧ freeIndex 48 = none ∧ freeIndex 51 = none ∧ freeIndex 52 = some 48 ∧
    freeIndex 63 = some 59 ∧ freeIndex 64 = none ∧ freeIndex 65 = none ∧ freeIndex 66 = some 60 ∧
    freeIndex 127 = some 121 ∧ freeIndex 128 = none ∧ scanOf 47 = some 47 ∧ scanOf 48 = some 52 ∧
    scanOf 59 = some 63 ∧ scanOf 60 = some 66 ∧ scanOf 121 = some 127 ∧ scanOf 122 = none ∧
    fixedValue (byteOf 64) (bitOf 64) = some true := by decide

theorem witness_CorrespondenceTable :
    (correspondence[6]?.bind (·[0]?)) = some (.fixed false) ∧
    (correspondence[15]?.bind (·[7]?)) = some (.free 121 15 1) := by decide

theorem witness_DecodeOfEncode : Instr.wf 8 (.unpack 255 lastValid) = true := by decide

theorem witness_OpSelectsOperation :
    Request.wf 8 ⟨0, 16, lastValid⟩ = true ∧ Request.wf 8 ⟨1, 255, lastValid⟩ = true := by decide

theorem witness_RequestWordFields : Request.wf 8 ⟨1, 255, lastValid⟩ = true := by decide

theorem witness_ResponseWordFields : (16 < 2 ^ 5 ∧ 31 < 2 ^ 5) ∧ (0 < 2 ^ 8 ∧ 255 < 2 ^ 8) := by decide

theorem witness_ResponseWordRoundTrip :
    (⟨.invalidLength, zeroLanes, 16, 31⟩ : Response).errExpected < 2 ^ 5 ∧
    (⟨.invalidLength, zeroLanes, 16, 31⟩ : Response).errActual < 2 ^ 5 := by decide

theorem witness_ReservedStatusIsAFault :
    readResponse 5 (BitVec.ofNat _ (3 * 2 ^ 128)) = .error .reservedStatus := by decide +kernel

theorem witness_out_of_reset : State.reset.inReset = false := rfl

theorem witness_PackAnswersThePayload :
    State.reset.inReset = false ∧ isFixed (byteOf 127) (bitOf 127) = false ∧
    isFixed (byteOf 47) (bitOf 47) = false ∧ isFixed (byteOf 52) (bitOf 52) = false := by decide

theorem witness_PackAppends122Bits : 122 ≤ 122 ∧ 122 ≤ 127 ∧ 127 ≤ 127 := by decide

theorem witness_PackIgnoresFixedBitsAndLength :
    SameFreeBits zeroLanes invertedFixed ∧ zeroLanes ≠ invertedFixed := by
  refine ⟨?_, by decide⟩
  unfold SameFreeBits
  decide +kernel

theorem witness_ValidPayload : ValidPayload lastValid ∧ ¬ ValidPayload lowPadding := by decide

theorem witness_PackMapsSixtyFourInputsToEachPayload :
    ValidPayload (payloadOf invertedFixed) ∧ payloadOf invertedFixed = payloadOf zeroIdentifier := by
  decide +kernel

theorem witness_UnpackRejectsWrongLength :
    State.reset.inReset = false ∧ 15 < 2 ^ State.reset.cfg.lenW ∧ 15 ≠ 16 ∧ 17 < 2 ^ State.reset.cfg.lenW ∧
    17 ≠ 16 ∧ 255 < 2 ^ State.reset.cfg.lenW ∧ 255 ≠ 16 := by decide

theorem witness_UnpackRejectsNonzeroPadding :
    State.reset.inReset = false ∧ byteAt lowPadding 15 &&& 0b11111100#8 ≠ 0#8 ∧
    byteAt highPadding 15 &&& 0b11111100#8 ≠ 0#8 := by decide

theorem witness_UnpackRebuildsTheIdentifier :
    State.reset.inReset = false ∧ byteAt lastValid 15 &&& 0b11111100#8 = 0#8 ∧
    fixedValue (byteOf 48) (bitOf 48) = some false ∧ isFixed (byteOf 127) (bitOf 127) = false := by decide

theorem witness_UnpackOutputIsCanonical :
    exec (.unpack 16 zeroLanes) State.reset =
      .next (State.reset.withResponse ⟨.ok, zeroIdentifier, 0, 0⟩) ∧
    (⟨.ok, zeroIdentifier, 0, 0⟩ : Response).status = .ok := by
  refine ⟨?_, rfl⟩
  rw [exec_of_wf (by decide)]
  have : identifierOf zeroLanes = zeroIdentifier := by decide +kernel
  simp [answer, State.reset, this, show paddingZero zeroLanes = true by decide]

theorem witness_UnpackPresentsAByteSequence :
    (List.replicate 15 0xAA#8).length ≠ 16 ∧ (List.replicate 17 0xAA#8).length ≠ 16 ∧
    2 ^ State.reset.cfg.lenW ≤ (List.replicate 256 0xAA#8).length := by decide +kernel

/-- `i < 16` at its last value, and `i < min n 16` at its last value for `n` below, at and above 16. -/
theorem witness_WrittenRequestsStandForRequests :
    15 < 16 ∧ 0 < min (List.replicate 1 0xAA#8).length 16 ∧ 15 < min (List.replicate 16 0xAA#8).length 16 ∧
    15 < min (List.replicate 17 0xAA#8).length 16 := by decide

theorem witness_ErrorCausesAndPriority :
    State.reset.inReset = false ∧ Instr.wf State.reset.cfg.lenW (.unpack 15 highPadding) = true ∧
    Instr.wf State.reset.cfg.lenW (.unpack 16 highPadding) = true ∧
    Instr.wf State.reset.cfg.lenW (.pack 0 highPadding) = true := by decide

theorem witness_NoResponseLeavesATrace :
    State.reset.inReset = false ∧ Instr.wf State.reset.cfg.lenW (.unpack 16 lastValid) = true ∧
    exec (.unpack 15 zeroLanes) State.reset =
      .next (State.reset.withResponse ⟨.invalidLength, zeroLanes, 16, 15⟩) := by
  refine ⟨rfl, by decide, ?_⟩
  rw [exec_of_wf (by decide)]
  rfl

theorem witness_RoundTripNormalizes :
    State.reset.inReset = false ∧ Canonical zeroIdentifier ∧ ¬ Canonical invertedFixed := by decide

theorem witness_ReencodeIsStable : State.reset.inReset = false ∧ ValidPayload lastValid := by decide

theorem witness_ResponseDependsOnRequestAlone :
    State.reset.inReset = false ∧ Instr.wf State.reset.cfg.lenW (.unpack 255 zeroLanes) = true ∧
    (withSchedule [.emit]).inReset = false ∧ withSchedule [.emit] ≠ State.reset := by decide

theorem witness_PayloadNumberReadsTheStream : ValidPayload lastValid ∧ scanOf 121 = some 127 := by decide

theorem witness_StepRunsTheDecodedRequest :
    (withSchedule [.request ⟨1, 16, lastValid⟩]).schedule = .request ⟨1, 16, lastValid⟩ :: [] ∧
    decode (withSchedule [.request ⟨1, 16, lastValid⟩]).cfg.lenW ⟨1, 16, lastValid⟩ =
      .ok (.unpack 16 lastValid) := by decide

theorem witness_StepsThatAcceptNoRequest :
    (withSchedule []).schedule = [] ∧
    ((withSchedule [.emit]).withResponse ⟨.ok, zeroLanes, 0, 0⟩).inFlight = ⟨.ok, zeroLanes, 0, 0⟩ :: [] ∧
    (withSchedule [.emit]).inReset = false ∧ (withSchedule [.emit]).inFlight = [] ∧
    ({ withSchedule [.emit] with inReset := true } : State).inReset = true ∧
    (withSchedule [.assertReset]).schedule = .assertReset :: [] ∧
    (withSchedule [.releaseReset]).schedule = .releaseReset :: [] := by decide

/-- A length of `2^LEN_W` exactly is refused, for both operations, as is one that would truncate to 16; a length one
below `2^LEN_W` is answered. -/
theorem witness_StepStopsOnlyOnUnpresentableLength :
    2 ^ State.reset.cfg.lenW = 256 ∧
    step (withSchedule [.request ⟨1, 256, lastValid⟩]) = .refused .lengthNotPresentable ∧
    step (withSchedule [.request ⟨0, 256, lastValid⟩]) = .refused .lengthNotPresentable ∧
    step (withSchedule [.request ⟨1, 256 + 16, lastValid⟩]) = .refused .lengthNotPresentable ∧
    step (withSchedule [.request ⟨1, 255, lastValid⟩]) =
      .next { State.reset with inFlight := [⟨.invalidLength, zeroLanes, 16, 255⟩], tick := 1 } :=
  ⟨rfl, rfl, rfl, rfl, rfl⟩

/-- Reset driven both ways, and the pending responses changed by a request, an emission and an assertion of reset. -/
theorem witness_StepFrame :
    step (withSchedule [.releaseReset]) = .next { State.reset with tick := 1 } ∧
    step { withSchedule [.releaseReset] with inReset := true } = .next { State.reset with tick := 1 } ∧
    step (withSchedule [.request ⟨1, 15, lastValid⟩]) =
      .next { State.reset with inFlight := [⟨.invalidLength, zeroLanes, 16, 15⟩], tick := 1 } ∧
    step ((withSchedule [.emit]).withResponse ⟨.ok, zeroLanes, 0, 0⟩) =
      .next { State.reset with rspOut := some ⟨.ok, zeroLanes, 0, 0⟩, tick := 1 } ∧
    step ((withSchedule [.assertReset]).withResponse ⟨.ok, zeroLanes, 0, 0⟩) =
      .next { State.reset with inReset := true, tick := 1 } := ⟨rfl, rfl, rfl, rfl, rfl⟩

theorem witness_StepKeepsInvariant :
    ((withSchedule [.emit]).withResponse ⟨.ok, zeroLanes, 0, 0⟩).Inv ∧
    step ((withSchedule [.emit]).withResponse ⟨.ok, zeroLanes, 0, 0⟩) =
      .next { State.reset with rspOut := some ⟨.ok, zeroLanes, 0, 0⟩, tick := 1 } := by
  refine ⟨?_, rfl⟩
  simp [State.Inv, State.withResponse, withSchedule, State.reset, Response.Conforms]
  decide

theorem witness_ResponsesLeaveInAcceptanceOrder :
    (withSchedule [.request ⟨0, 0, zeroLanes⟩, .request ⟨1, 15, lastValid⟩, .emit]).inReset = false ∧
    ∀ e ∈ (withSchedule [.request ⟨0, 0, zeroLanes⟩, .request ⟨1, 15, lastValid⟩, .emit]).schedule,
      e.plain State.reset.cfg.lenW := by
  refine ⟨rfl, ?_⟩
  simp [withSchedule, Event.plain, Request.wf, State.reset, Config.lenW, Config.reference]

theorem witness_EmissionsAnswerAllPending :
    ((withSchedule [.emit]).withResponse ⟨.ok, zeroLanes, 0, 0⟩).inReset = false ∧
    ((withSchedule [.emit]).withResponse ⟨.ok, zeroLanes, 0, 0⟩).schedule =
      List.replicate ((withSchedule [.emit]).withResponse ⟨.ok, zeroLanes, 0, 0⟩).inFlight.length .emit := by
  decide

theorem witness_ResetDiscardsWhatWasInFlight :
    (withSchedule [.assertReset, .releaseReset, .emit]).schedule =
      .assertReset :: [.releaseReset, .emit] := rfl

theorem witness_NoResponseUnderReset :
    ({ withSchedule [.request ⟨0, 0, zeroLanes⟩, .emit] with inReset := true } : State).inReset = true ∧
    Event.releaseReset ∉ (withSchedule [.request ⟨0, 0, zeroLanes⟩, .emit]).schedule ∧
    Instr.wf State.reset.cfg.lenW (.pack 0 zeroLanes) = true := by decide

theorem witness_ResponseLinesCarryTheWord :
    ({ State.reset with rspOut := some ⟨.ok, lastValid, 0, 0⟩ } : State).rspOut =
      some ⟨.ok, lastValid, 0, 0⟩ ∧
    (⟨.ok, lastValid, 0, 0⟩ : Response).result = some lastValid ∧
    (⟨.nonzeroPadding, zeroLanes, 0, 0⟩ : Response).result = none := ⟨rfl, rfl, rfl⟩

end Sys2Proof.Tests
end

section
/-! Written forms of identifiers and requests: the lanes they stand for. -/

namespace Sys2Proof.Machine

/-- Lane `i` of an operand that is given lane by lane. -/
theorem byteAt_ofFn (f : Fin 16 → Byte) {i : Nat} (hi : i < 16) : byteAt (Vector.ofFn f) i = f ⟨i, hi⟩ := by
  simp [byteAt_eq_getElem _ hi]

/-- Byte `i` of a written identifier is its pair of digits, the first digit above the second (spec/00_scope.md R14). -/
theorem byteAt_ofHexDigits (digits : Vector (BitVec 4) 32) {i : Nat} (hi : i < 16) :
    byteAt (ofHexDigits digits) i = digits[2 * i] ++ digits[2 * i + 1] :=
  byteAt_ofFn _ hi

/-- A byte sequence is presented with its own length and its bytes in the first lanes, whatever `fill` holds
(spec/30_encoding.md R65). -/
theorem assembleUnpack_presents (bytes : List Byte) (fill : Lanes) :
    ∃ din, assembleUnpack bytes fill = .unpack bytes.length din ∧
      ∀ i < min bytes.length 16, bytes[i]? = some (byteAt din i) := by
  refine ⟨_, rfl, fun i hi => ?_⟩
  obtain ⟨hlen, hlane⟩ := Nat.lt_min.mp hi
  rw [byteAt_ofFn _ hlane]
  simp [hlen]

/-- Settles O26: each digit is read off the byte its pair makes; the PACK form and the UNPACK form with a length unfold
to their requests, and the UNPACK form without one is the presentation of a byte sequence. -/
theorem writtenRequestsStandForRequests : Obligations.WrittenRequestsStandForRequests := by
  refine ⟨fun digits i hi => ?digits, by decide, fun fill => ⟨fun _ => rfl, fun bytes => ?unpack, fun _ _ => rfl⟩⟩
  case digits =>
    rw [byteAt_ofHexDigits digits hi]
    exact ⟨BitVec.extractLsb'_append_eq_left, BitVec.extractLsb'_append_eq_right⟩
  case unpack => exact assembleUnpack_presents bytes fill

end Sys2Proof.Machine
end

section
/-! The Fixed-Bit Table, the bit correspondence, and what a step changes (spec/10_state.md). -/

namespace Sys2Proof.Machine

/-! ### The Fixed-Bit Table -/

/-- A bit is named by an entry exactly when the entry's byte is its byte and the entry's mask has its bit. -/
theorem names_iff {e : FixedBitPosition} {b i : Nat} :
    e.names b i = true ↔ e.byteIndex.val = b ∧ e.mask.getLsbD i = true := by
  simp [FixedBitPosition.names]

theorem isFixed_iff {b i : Nat} :
    isFixed b i = true ↔ ∃ e ∈ fixedBitTable, e.byteIndex.val = b ∧ e.mask.getLsbD i = true := by
  simp only [isFixed, List.any_eq_true, names_iff]

theorem fixedBitTable_bytes_nodup : (fixedBitTable.map fun e => e.byteIndex).Nodup := by decide

/-- No pattern has a bit outside its mask. -/
theorem fixedBitTable_pattern_within_mask : ∀ e ∈ fixedBitTable, e.pattern &&& ~~~e.mask = 0#8 := by decide

/-- No two entries name the same bit, since they lie in different bytes (spec/10_state.md R26). -/
theorem fixedBitTable_names_unique {e f : FixedBitPosition} {b i : Nat} (he : e ∈ fixedBitTable)
    (hf : f ∈ fixedBitTable) (hne : e.names b i = true) (hnf : f.names b i = true) : e = f := by
  have hbyte : e.byteIndex = f.byteIndex := Fin.ext ((names_iff.mp hne).1.trans (names_iff.mp hnf).1.symm)
  exact List.inj_on_of_nodup_map fixedBitTable_bytes_nodup he hf hbyte

/-- `fixedValue` reads the pattern of whichever entry names the bit. -/
theorem fixedValue_of_names {e : FixedBitPosition} {b i : Nat} (he : e ∈ fixedBitTable)
    (hn : e.names b i = true) : fixedValue b i = some (e.pattern.getLsbD i) := by
  have hfound : (fixedBitTable.find? fun f => f.names b i).isSome := List.find?_isSome.mpr ⟨e, he, hn⟩
  obtain ⟨f, hf⟩ := Option.isSome_iff_exists.mp hfound
  have hnf : f.names b i = true := List.find?_some (p := fun f : FixedBitPosition => f.names b i) hf
  have hfe : f = e := fixedBitTable_names_unique (List.mem_of_find?_eq_some hf) he hnf hn
  rw [fixedValue, hf, hfe, Option.map_some]

theorem fixedValue_of_not_isFixed {b i : Nat} (h : isFixed b i = false) : fixedValue b i = none := by
  rw [fixedValue, Option.map_eq_none_iff, List.find?_eq_none]
  simpa [isFixed] using h

/-- The six fixed bits of R25, read off the two masks. -/
theorem isFixed_iff_six_bits {b i : Nat} (hi : i < 8) :
    isFixed b i = true ↔ (b = 6 ∧ i ∈ [7, 6, 5, 4]) ∨ (b = 8 ∧ i ∈ [7, 6]) := by
  have version : ∀ i < 8, (0xF0#8).getLsbD i = true ↔ i ∈ [7, 6, 5, 4] := by decide
  have variant : ∀ i < 8, (0xC0#8).getLsbD i = true ↔ i ∈ [7, 6] := by decide
  rw [isFixed_iff]
  simp only [fixedBitTable, List.mem_cons, List.not_mem_nil, or_false, exists_eq_or_imp, exists_eq_left,
    version i hi, variant i hi]
  exact or_congr (and_congr_left' eq_comm) (and_congr_left' eq_comm)

/-- Settles O1: the table is a constant of two entries. -/
theorem fixedBitTableEntries : Obligations.FixedBitTableEntries :=
  ⟨rfl, fixedBitTable_pattern_within_mask⟩

/-- Settles O2: `isFixed` looks for an entry that names the bit, `fixedValue` reads the one entry that does. -/
theorem fixedBitReads : Obligations.FixedBitReads := by
  intro b _ i hi
  refine ⟨isFixed_iff, fun e he hb hm => fixedValue_of_names he (names_iff.mpr ⟨hb, hm⟩),
    isFixed_iff_six_bits hi, fixedValue_of_not_isFixed, ?_⟩
  decide

/-- Settles O3: the free positions are those the walk counts over the whole scan. -/
theorem fixedBitTableWellFormed : Obligations.FixedBitTableWellFormed :=
  ⟨fixedBitTable_bytes_nodup, fixedBitTable_pattern_within_mask, by decide +kernel, freeBelow_last⟩

/-! ### The bit correspondence -/

/-- The closed form of `freeIndex` is the walk's numbering of the free positions (spec/10_state.md R27). -/
theorem freeIndex_eq_walk {k : Nat} (hk : k < 128) :
    freeIndex k = if isFixed (byteOf k) (bitOf k) then none else some (freeBelow k) := by
  cases h : isFixed (byteOf k) (bitOf k)
  · obtain ⟨-, -, hfree⟩ := scanOf_freeBelow k hk h
    simpa using hfree
  · simpa using freeIndex_of_isFixed k hk h

theorem freeIndex_eq_some_iff {k j : Nat} : freeIndex k = some j ↔ scanOf j = some k := by
  constructor
  · intro h
    obtain ⟨-, -, hscan⟩ := scanOf_freeIndex h
    exact hscan
  · intro h
    obtain ⟨-, -, hfree, -⟩ := freeIndex_scanOf h
    exact hfree

/-- PACK copies scan position `k` to stream position `freeIndex k`. -/
theorem bitAt_payloadOf_of_freeIndex (u : Lanes) {k j : Nat} (h : freeIndex k = some j) :
    bitAt (payloadOf u) (j / 8) (j % 8) = bitAt u (byteOf k) (bitOf k) := by
  obtain ⟨-, hj, hscan⟩ := scanOf_freeIndex h
  rw [bitAt_payloadOf u (by omega), hscan, Option.map_some, Option.getD_some]

/-- UNPACK copies stream position `freeIndex k` back to scan position `k`. -/
theorem bitAt_identifierOf_of_freeIndex (p : Lanes) {k j : Nat} (h : freeIndex k = some j) :
    bitAt (identifierOf p) (byteOf k) (bitOf k) = bitAt p (j / 8) (j % 8) := by
  obtain ⟨-, hk, -, hfree⟩ := freeIndex_scanOf (freeIndex_eq_some_iff.mp h)
  rw [bitAt_identifierOf p hk, fixedValue_of_not_isFixed hfree, h, Option.getD_none, Option.map_some,
    Option.getD_some]

/-- UNPACK fills a fixed position from the table. -/
theorem bitAt_identifierOf_of_fixedValue (p : Lanes) {k : Nat} (hk : k < 128) {v : Bool}
    (hv : fixedValue (byteOf k) (bitOf k) = some v) : bitAt (identifierOf p) (byteOf k) (bitOf k) = v := by
  rw [bitAt_identifierOf p hk, hv, Option.getD_some]

theorem freeIndex_first {k : Nat} (h : k ≤ 47) : freeIndex k = some k := if_pos h

theorem freeIndex_between {k : Nat} (h₁ : 52 ≤ k) (h₂ : k ≤ 63) : freeIndex k = some (k - 4) := by
  rw [freeIndex, if_neg (by omega), if_pos ⟨h₁, h₂⟩]

theorem freeIndex_last {k : Nat} (h₁ : 66 ≤ k) (h₂ : k ≤ 127) : freeIndex k = some (k - 6) := by
  rw [freeIndex, if_neg (by omega), if_neg (by omega), if_pos ⟨h₁, h₂⟩]

theorem scanOf_first {j : Nat} (h : j ≤ 47) : scanOf j = some j := if_pos h

theorem scanOf_between {j : Nat} (h₁ : 48 ≤ j) (h₂ : j ≤ 59) : scanOf j = some (j + 4) := by
  rw [scanOf, if_neg (by omega), if_pos h₂]

theorem scanOf_last {j : Nat} (h₁ : 60 ≤ j) (h₂ : j ≤ 121) : scanOf j = some (j + 6) := by
  rw [scanOf, if_neg (by omega), if_neg (by omega), if_pos h₂]

/-- Settles O4: the walk's numbering and its closed forms, and what each bit of the two scans' results holds. -/
theorem freeIndexCorrespondence : Obligations.FreeIndexCorrespondence :=
  ⟨fun _ => freeIndex_eq_walk, fun _ _ => freeIndex_eq_some_iff,
    fun _ => freeIndex_first, fun _ => freeIndex_between, fun _ => freeIndex_last,
    fun _ => scanOf_first, fun _ => scanOf_between, fun _ => scanOf_last,
    fun u _ _ => bitAt_payloadOf_of_freeIndex u, fun p _ _ => bitAt_identifierOf_of_freeIndex p,
    fun p _ hk _ => bitAt_identifierOf_of_fixedValue p hk⟩

/-! ### The written-out table -/

/-- The cell the table reads and the walk give to scan position `k`. -/
def cellAt (k : Nat) : CorrespondenceCell :=
  match fixedValue (byteOf k) (bitOf k) with
  | some v => .fixed v
  | none => .free (freeBelow k) (freeBelow k / 8) (freeBelow k % 8)

/-- The written-out table of R28 is the one the table reads and the walk give. -/
theorem correspondence_eq_cellAt :
    correspondence = (List.range 16).map fun b => (List.range 8).map fun c => cellAt (8 * b + c) := by
  decide +kernel

/-- Bit `i` of byte `b` stands at scan position `8 b + (7 - i)` (spec/00_scope.md R12). -/
theorem byteOf_scanPosition (b : Nat) {i : Nat} (hi : i < 8) : byteOf (8 * b + (7 - i)) = b := by
  unfold byteOf; omega

theorem bitOf_scanPosition (b : Nat) {i : Nat} (hi : i < 8) : bitOf (8 * b + (7 - i)) = i := by
  unfold bitOf; omega

theorem isFixed_of_fixedValue_eq_none {k : Nat} (hk : k < 128) (h : fixedValue (byteOf k) (bitOf k) = none) :
    isFixed (byteOf k) (bitOf k) = false := by
  rw [isFixed_eq_fixedValue_isSome k hk, h, Option.isSome_none]

/-- No cell holds a padding position. -/
theorem cellAt_free_lt {k : Nat} (hk : k < 128) {j byte bit : Nat} (h : cellAt k = .free j byte bit) : j < 122 := by
  cases hv : fixedValue (byteOf k) (bitOf k) with
  | some v => simp [cellAt, hv] at h
  | none =>
    obtain ⟨hlt, -, -⟩ := scanOf_freeBelow k hk (isFixed_of_fixedValue_eq_none hk hv)
    simp only [cellAt, hv, CorrespondenceCell.free.injEq] at h
    omega

/-- Settles O5: every cell is the one that `cellAt` computes, fixed exactly where the table has a value. -/
theorem correspondenceTable : Obligations.CorrespondenceTable := by
  rw [Obligations.CorrespondenceTable, correspondence_eq_cellAt]
  refine ⟨by simp, by simp, fun b hb i hi => ?cell, fun row hrow byte bit j hj hmem => ?padding⟩
  case cell =>
    have hk : 8 * b + (7 - i) < 128 := by omega
    have hbyte := byteOf_scanPosition b hi
    have hbit := bitOf_scanPosition b hi
    refine ⟨(List.range 8).map fun c => cellAt (8 * b + c), by simp [hb],
      cellAt (8 * b + (7 - i)), by simp [show 7 - i < 8 by omega], ?_⟩
    cases hv : fixedValue b i with
    | some v => simp only [cellAt, hbyte, hbit, hv]
    | none =>
      have hfree : isFixed (byteOf (8 * b + (7 - i))) (bitOf (8 * b + (7 - i))) = false :=
        isFixed_of_fixedValue_eq_none hk (by rw [hbyte, hbit, hv])
      obtain ⟨-, -, hindex⟩ := scanOf_freeBelow _ hk hfree
      rw [hbyte, hbit] at hfree
      simp only [cellAt, hbyte, hbit, hv, true_and]
      exact ⟨hindex, hfree⟩
  case padding =>
    obtain ⟨b, hb, rfl⟩ := List.mem_map.mp hrow
    obtain ⟨c, hc, hcell⟩ := List.mem_map.mp hmem
    rw [List.mem_range] at hb hc
    have hlt := cellAt_free_lt (by omega) hcell
    omega

/-! ### One step -/

theorem advance_of_cons {s : State} {e : Event} {es : List Event} (h : s.schedule = e :: es) :
    advance s = { s with schedule := es, rspOut := none, tick := s.tick + 1 } := by
  rw [advance, h, List.tail_cons]

/-- Accepting a request that decodes is running its instruction. -/
theorem acceptRequest_of_decode {s : State} {r : Request} {i : Instr} (h : decode s.cfg.lenW r = .ok i) :
    acceptRequest r s = exec i s := by
  rw [acceptRequest, h]

/-- Settles O37: the step takes the request, and acceptance runs the instruction it decodes to. -/
theorem stepRunsTheDecodedRequest : Obligations.StepRunsTheDecodedRequest := by
  intro s r es i hsched hdec
  calc step s
      = acceptRequest r (advance s) := step_cons hsched
    _ = exec i (advance s) := acceptRequest_of_decode hdec
    _ = exec i { s with schedule := es, rspOut := none, tick := s.tick + 1 } := by
        rw [advance_of_cons hsched]

/-- An emission moves the oldest pending response to the outputs, or only empties them. -/
theorem emitOldest_cases (s : State) :
    (∃ r rest, s.inReset = false ∧ s.inFlight = r :: rest ∧
      emitOldest s = { s with inFlight := rest, rspOut := some r }) ∨
    ((s.inReset = true ∨ s.inFlight = []) ∧ emitOldest s = { s with rspOut := none }) := by
  by_cases hr : s.inReset = true
  · exact .inr ⟨.inl hr, emitOldest_of_inReset hr⟩
  · rw [Bool.not_eq_true] at hr
    by_cases hf : s.inFlight = []
    · exact .inr ⟨.inr hf, emitOldest_nil hf⟩
    · obtain ⟨r, rest, hf⟩ := List.exists_cons_of_ne_nil hf
      exact .inl ⟨r, rest, hr, hf, emitOldest_cons hr hf⟩

/-- Everything a step that goes on can do: only advance, with nothing to come, at a request under reset and at an
emission that finds nothing to emit; add the response of a request; move the oldest response to the outputs; enter or
leave reset. -/
theorem step_next_cases {s t : State} (h : step s = .next t) :
    ((s.schedule = [] ∨ (∃ q, s.schedule.head? = some (.request q) ∧ s.inReset = true) ∨
      (s.schedule.head? = some .emit ∧ (s.inReset = true ∨ s.inFlight = []))) ∧ t = advance s) ∨
    (∃ q i, s.schedule.head? = some (.request q) ∧ s.inReset = false ∧ decode s.cfg.lenW q = .ok i ∧
      t = (advance s).withResponse (answer i)) ∨
    (∃ r rest, s.schedule.head? = some .emit ∧ s.inReset = false ∧ s.inFlight = r :: rest ∧
      t = { advance s with inFlight := rest, rspOut := some r }) ∨
    (s.schedule.head? = some .assertReset ∧ t = enterReset (advance s)) ∨
    (s.schedule.head? = some .releaseReset ∧ t = leaveReset (advance s)) := by
  cases hs : s.schedule with
  | nil =>
    rw [step_nil hs] at h
    cases h
    exact .inl ⟨.inl rfl, rfl⟩
  | cons e es =>
    rw [step_cons hs] at h
    obtain ⟨r, -, -, hp⟩ | ⟨q, i, rfl, hdec, -, hp⟩ | ⟨rfl, hp⟩ | ⟨rfl, hp⟩ | ⟨rfl, hp⟩ :=
      perform_cases e (advance s) <;> rw [hp] at h <;> cases h
    · cases hr : s.inReset with
      | true => exact .inl ⟨.inr (.inl ⟨q, rfl, rfl⟩), by simp [hr]⟩
      | false => exact .inr (.inl ⟨q, i, rfl, rfl, hdec, by simp [hr]⟩)
    · obtain ⟨r, rest, hr, hf, he⟩ | ⟨hq, he⟩ := emitOldest_cases (advance s)
      · exact .inr (.inr (.inl ⟨r, rest, rfl, hr, hf, he⟩))
      · exact .inl ⟨.inr (.inr ⟨rfl, hq⟩), he⟩
    · exact .inr (.inr (.inr (.inl ⟨rfl, rfl⟩)))
    · exact .inr (.inr (.inr (.inr ⟨rfl, rfl⟩)))

/-- Settles O40: of the five things a step can do, each changes only what its event allows. -/
theorem stepFrame : Obligations.StepFrame := by
  intro s t h
  obtain ⟨-, rfl⟩ | ⟨q, i, hhead, hr, hdec, rfl⟩ | ⟨r, rest, hhead, hr, hf, rfl⟩ | ⟨hhead, rfl⟩ | ⟨hhead, rfl⟩ :=
    step_next_cases h
  · simp
  · simp [hhead, hr, responsesAlone_of_decode hdec]
  · simp [hhead, hr, hf]
  · simp [hhead]
  · simp [hhead]

end Sys2Proof.Machine
end

section
/-! Operands as numbers and on the bus (spec/20_memory.md R41 to R43). -/

namespace Sys2Proof.Machine

/-! ### Payloads -/

theorem payloadNumber_lt (p : Lanes) : payloadNumber p < 2 ^ 128 :=
  (byteSum_spec (byteAt p) 16).1

/-- Bit `j` of a payload's number is bit `j mod 8` of its byte `j div 8` (spec/20_memory.md R42). -/
theorem testBit_payloadNumber (p : Lanes) {j : Nat} (hj : j < 128) :
    (payloadNumber p).testBit j = bitAt p (j / 8) (j % 8) := by
  have h := (byteSum_spec (byteAt p) 16).2 j
  rwa [decide_eq_true (show j < 8 * 16 from hj), Bool.true_and] at h

/-- The padding of a valid payload, stream positions 122 to 127, is 0 (spec/00_scope.md R15). -/
theorem bitAt_padding_of_validPayload {p : Lanes} (h : ValidPayload p) {j : Nat} (h₁ : 122 ≤ j) (h₂ : j < 128) :
    bitAt p (j / 8) (j % 8) = false := by
  have hmask : ∀ i < 8, 2 ≤ i → (0b11111100#8).getLsbD i = true := by decide
  have hbit := congrArg (fun v : Byte => v.getLsbD (j % 8)) h
  simp only [BitVec.getLsbD_and, BitVec.getLsbD_zero, hmask (j % 8) (by omega) (by omega), Bool.and_true] at hbit
  rwa [bitAt, show j / 8 = 15 by omega]

theorem payloadNumber_lt_of_validPayload {p : Lanes} (h : ValidPayload p) : payloadNumber p < 2 ^ 122 := by
  refine Nat.lt_pow_two_of_testBit _ fun j hj => ?_
  by_cases hj' : j < 128
  · rw [testBit_payloadNumber p hj', bitAt_padding_of_validPayload h hj hj']
  · exact Nat.testBit_eq_false_of_lt
      ((payloadNumber_lt p).trans_le (Nat.pow_le_pow_right (by decide) (Nat.not_lt.mp hj')))

/-- Settles O35: the number's bits are the bytes' bits in order, which PACK fills with the free bits. -/
theorem payloadNumberReadsTheStream : Obligations.PayloadNumberReadsTheStream := by
  refine ⟨fun p => ⟨rfl, fun j => testBit_payloadNumber p, payloadNumber_lt_of_validPayload⟩,
    fun u j k hscan => ?packed⟩
  case packed =>
    obtain ⟨hj, -, hfree, -⟩ := freeIndex_scanOf hscan
    rw [testBit_payloadNumber _ (by omega), bitAt_payloadOf_of_freeIndex u hfree]

/-! ### Identifiers -/

theorem byteAt_reverse (l : Lanes) {i : Nat} (hi : i < 16) : byteAt l.reverse i = byteAt l (15 - i) := by
  rw [byteAt_eq_getElem _ hi, Vector.getElem_reverse, byteAt_eq_getElem l (by omega)]

/-- An identifier's number is a payload's number with the bytes reversed: the two sums hold the same terms, one from
either end. -/
theorem identifierNumber_eq_payloadNumber_reverse (u : Lanes) : identifierNumber u = payloadNumber u.reverse := by
  rw [payloadNumber, ← List.sum_reverse, ← List.map_reverse, List.range_eq_range', List.reverse_range',
    List.map_map, identifierNumber]
  refine congrArg List.sum (List.map_congr_left fun i hi => ?_)
  have hi : i < 16 := List.mem_range.mp hi
  rw [Function.comp_apply, show 0 + 16 - 1 - i = 15 - i by omega, byteAt_reverse u (by omega),
    show 15 - (15 - i) = i by omega]

/-- Bit `127 - k` of an identifier's number is the bit at scan position `k` (spec/20_memory.md R41). -/
theorem testBit_identifierNumber (u : Lanes) {k : Nat} (hk : k < 128) :
    (identifierNumber u).testBit (127 - k) = bitAt u (byteOf k) (bitOf k) := by
  have hbyte : 15 - (127 - k) / 8 = byteOf k := by unfold byteOf; omega
  have hbit : (127 - k) % 8 = bitOf k := by unfold bitOf; omega
  rw [identifierNumber_eq_payloadNumber_reverse, testBit_payloadNumber _ (by omega), bitAt,
    byteAt_reverse u (by omega), hbyte, hbit, byteAt_getLsbD]

/-- Settles O34: the sum is a payload's number from the other end, so its bits are read off in scan order. -/
theorem identifierNumberReadsTheScan : Obligations.IdentifierNumberReadsTheScan :=
  fun u => ⟨identifierNumber_eq_payloadNumber_reverse u ▸ payloadNumber_lt u.reverse, rfl,
    fun _ => testBit_identifierNumber u⟩

/-! ### The flattened bus -/

theorem extractLsb'_laneBus (l : Lanes) {i : Nat} (hi : i < 16) :
    (laneBus l).extractLsb' (8 * i) 8 = byteAt l i := by
  apply BitVec.eq_of_getLsbD_eq
  intro n hn
  rw [BitVec.getLsbD_extractLsb', decide_eq_true hn, Bool.true_and, getLsbD_laneBus l (by omega),
    show (8 * i + n) / 8 = i by omega, show (8 * i + n) % 8 = n by omega, byteAt_getLsbD]

/-- The bus and the payload's number have the same bits, those of the lanes in order. -/
theorem laneBus_eq_ofNat_payloadNumber (l : Lanes) : laneBus l = BitVec.ofNat 128 (payloadNumber l) := by
  apply BitVec.eq_of_getLsbD_eq
  intro j hj
  rw [getLsbD_laneBus l hj, BitVec.getLsbD_ofNat, decide_eq_true hj, Bool.true_and, testBit_payloadNumber l hj]

theorem laneBus_toNat (l : Lanes) : (laneBus l).toNat = payloadNumber l := by
  rw [laneBus_eq_ofNat_payloadNumber, BitVec.toNat_ofNat, Nat.mod_eq_of_lt (payloadNumber_lt l)]

/-- Settles O36: the bus reads as the payload's number, and so as the number of the reversed identifier. -/
theorem busReadsLanesInOrder : Obligations.BusReadsLanesInOrder := by
  refine fun l => ⟨fun i => extractLsb'_laneBus l, laneBus_toNat l, ?_, busLanes_laneBus l⟩
  rw [identifierNumber_eq_payloadNumber_reverse, Vector.reverse_reverse, laneBus_toNat]

end Sys2Proof.Machine
end

section
/-! Runs out of reset: each request gets one response, and responses leave in acceptance order
(spec/20_memory.md R47, R50). -/

namespace Sys2Proof.Machine

/-! ### One step for each event -/

theorem step_emit_of_pending {s : State} {es : List Event} {r : Response} {rest : List Response}
    (hs : s.schedule = .emit :: es) (hr : s.inReset = false) (hf : s.inFlight = r :: rest) :
    step s = .next { advance s with inFlight := rest, rspOut := some r } := by
  rw [step_cons hs, perform, emitOldest_cons (by simpa using hr) (by simpa using hf)]

theorem step_emit_of_nothing {s : State} {es : List Event} (hs : s.schedule = .emit :: es)
    (h : s.inReset = true ∨ s.inFlight = []) : step s = .next (advance s) := by
  rw [step_cons hs, perform]
  obtain hr | hf := h
  · rw [emitOldest_of_inReset (by simpa using hr)]; rfl
  · rw [emitOldest_nil (by simpa using hf)]; rfl

/-- A request that can be presented out of reset adds the one response it would get alone. -/
theorem step_request_of_wf {s : State} {q : Request} {es : List Event} (hs : s.schedule = .request q :: es)
    (hr : s.inReset = false) (hq : q.wf s.cfg.lenW = true) :
    ∃ r, responsesAlone s.cfg q = [r] ∧ step s = .next ((advance s).withResponse r) := by
  obtain ⟨i, hdec, hi⟩ := decode_of_wf hq
  refine ⟨answer i, responsesAlone_of_decode hdec, ?_⟩
  rw [step_cons hs, perform, acceptRequest_of_decode (by simpa using hdec), exec_of_wf (by simpa using hi)]
  simp [hr]

/-- Settles O38: one step for each event but the request, and one for none. -/
theorem stepsThatAcceptNoRequest : Obligations.StepsThatAcceptNoRequest := by
  intro s es
  refine ⟨fun hs => ?nothing, fun r rest hs hr hf => ?pending, fun hs h => ?empty, fun hs => ?assert,
    fun hs => ?release⟩
  case nothing => rw [step_nil hs, advance, hs, List.tail_nil]
  case pending => rw [step_emit_of_pending hs hr hf, advance_of_cons hs]
  case empty => rw [step_emit_of_nothing hs h, advance_of_cons hs]
  case assert => rw [step_cons hs, perform, advance_of_cons hs, enterReset]
  case release => rw [step_cons hs, perform, advance_of_cons hs, leaveReset]

/-! ### Runs -/

theorem runFor_succ_of_step {s t : State} (h : step s = .next t) (n : Nat) : runFor (n + 1) s = runFor n t := by
  rw [runFor, h]

theorem emitted_succ_of_step {s t : State} (h : step s = .next t) (n : Nat) :
    emitted (n + 1) s = t.rspOut.toList ++ emitted n t := by
  rw [emitted, h]

theorem requestsOf_cons (e : Event) (es : List Event) : requestsOf (e :: es) = requestsOf [e] ++ requestsOf es := by
  cases e <;> rfl

theorem mem_requestsOf_iff {q : Request} {es : List Event} : q ∈ requestsOf es ↔ .request q ∈ es := by
  induction es with
  | nil => simp [requestsOf]
  | cons e es ih => cases e <;> simp [requestsOf, ih]

/-- One step of a run out of reset: it goes through, and what it emits with what it leaves pending is what was pending
with the response its request gets alone. -/
theorem step_of_plain {s : State} {e : Event} {es : List Event} (hs : s.schedule = e :: es)
    (hr : s.inReset = false) (he : e.plain s.cfg.lenW) :
    ∃ t, step s = .next t ∧ t.cfg = s.cfg ∧ t.schedule = es ∧ t.inReset = false ∧
      t.rspOut.toList ++ t.inFlight = s.inFlight ++ (requestsOf [e]).flatMap (responsesAlone s.cfg) := by
  cases e with
  | request q =>
    obtain ⟨r, halone, hstep⟩ := step_request_of_wf hs hr he
    exact ⟨_, hstep, by simp, by simp [hs], by simp [hr], by simp [requestsOf, halone]⟩
  | emit =>
    cases hf : s.inFlight with
    | nil =>
      exact ⟨_, step_emit_of_nothing hs (.inr hf), by simp, by simp [hs], by simp [hr], by simp [requestsOf, hf]⟩
    | cons r rest =>
      exact ⟨_, step_emit_of_pending hs hr hf, by simp, by simp [hs], by simp [hr], by simp [requestsOf]⟩
  | assertReset => exact he.elim
  | releaseReset => exact he.elim

/-- A run out of reset loses no response, adds none and keeps their order. -/
theorem run_of_plain {es : List Event} {s : State} (hs : s.schedule = es) (hr : s.inReset = false)
    (hplain : ∀ e ∈ es, e.plain s.cfg.lenW) :
    ∃ t, runFor es.length s = .next t ∧
      emitted es.length s ++ t.inFlight = s.inFlight ++ (requestsOf es).flatMap (responsesAlone s.cfg) := by
  induction es generalizing s with
  | nil => exact ⟨s, rfl, by simp [emitted, requestsOf]⟩
  | cons e es ih =>
    obtain ⟨he, hes⟩ := List.forall_mem_cons.mp hplain
    obtain ⟨s', hstep, hcfg, hs', hr', hout⟩ := step_of_plain hs hr he
    obtain ⟨t, hrun, hall⟩ := ih hs' hr' (hcfg ▸ hes)
    refine ⟨t, (runFor_succ_of_step hstep _).trans hrun, ?_⟩
    calc emitted (es.length + 1) s ++ t.inFlight
        = s'.rspOut.toList ++ (emitted es.length s' ++ t.inFlight) := by
          rw [emitted_succ_of_step hstep, List.append_assoc]
      _ = (s'.rspOut.toList ++ s'.inFlight) ++ (requestsOf es).flatMap (responsesAlone s.cfg) := by
          rw [hall, hcfg, List.append_assoc]
      _ = s.inFlight ++ (requestsOf (e :: es)).flatMap (responsesAlone s.cfg) := by
          rw [hout, requestsOf_cons e es, List.flatMap_append, List.append_assoc]

/-- Settles O43: an induction over the schedule, and one response for each request it presents. -/
theorem responsesLeaveInAcceptanceOrder : Obligations.ResponsesLeaveInAcceptanceOrder := by
  intro s hr hplain
  refine ⟨run_of_plain rfl hr hplain, fun q hq => ?_⟩
  have hwf : q.wf s.cfg.lenW = true := hplain _ (mem_requestsOf_iff.mp hq)
  obtain ⟨i, hdec, -⟩ := decode_of_wf hwf
  rw [responsesAlone_of_decode hdec, List.length_singleton]

/-- As many emissions as responses pending emit them all in order. -/
theorem emissions_answer_pending {pending : List Response} {s : State} (hr : s.inReset = false)
    (hf : s.inFlight = pending) (hs : s.schedule = List.replicate pending.length .emit) :
    emitted pending.length s = pending ∧ ∃ t, runFor pending.length s = .next t ∧ t.inFlight = [] := by
  induction pending generalizing s with
  | nil => exact ⟨rfl, s, rfl, hf⟩
  | cons r rest ih =>
    rw [List.length_cons, List.replicate_succ] at hs
    have hstep := step_emit_of_pending hs hr hf
    obtain ⟨hout, hrun⟩ := ih (s := { advance s with inFlight := rest, rspOut := some r }) hr rfl (by simp [hs])
    rw [List.length_cons, emitted_succ_of_step hstep, runFor_succ_of_step hstep, hout]
    exact ⟨rfl, hrun⟩

/-- Settles O44: an induction over the pending responses. -/
theorem emissionsAnswerAllPending : Obligations.EmissionsAnswerAllPending :=
  fun _ hr hs => emissions_answer_pending hr rfl hs

end Sys2Proof.Machine
end

section
/-! The flat words of requests and responses, how a byte sequence is presented, and the field values every response
keeps (spec/30_encoding.md). -/

namespace Sys2Proof.Machine

/-! ### Decoding and encoding -/

theorem decode_encodeFields {lenW : Nat} {i : Instr} (h : i.wf lenW = true) :
    decode lenW (encodeFields i) = .ok i := by
  cases i with
  | pack len din => exact Laws.FieldsRoundTrip.pack len din lenW h
  | unpack len din => exact Laws.FieldsRoundTrip.unpack len din lenW h

theorem decode_of_op_zero {lenW : Nat} {r : Request} (hr : r.wf lenW = true) (hop : r.op = 0#1) :
    decode lenW r = .ok (.pack r.len r.din) := by
  have hlen : r.len < 2 ^ lenW := by simpa [Request.wf] using hr
  rw [decode, if_pos hlen, if_pos hop]

theorem decode_of_op_one {lenW : Nat} {r : Request} (hr : r.wf lenW = true) (hop : r.op = 1#1) :
    decode lenW r = .ok (.unpack r.len r.din) := by
  have hlen : r.len < 2 ^ lenW := by simpa [Request.wf] using hr
  rw [decode, if_pos hlen, if_neg (by rw [hop]; decide)]

/-- The decoder keeps every field of the request, so its fields are those of the instruction. -/
theorem encodeFields_of_decode {lenW : Nat} {r : Request} {i : Instr} (h : decode lenW r = .ok i) :
    encodeFields i = r := by
  obtain ⟨hr, -⟩ := wf_of_decode h
  obtain hop | hop := BitVec.eq_zero_or_eq_one r.op
  · rw [decode_of_op_zero hr hop] at h
    cases h
    rw [encodeFields, ← hop]
  · rw [decode_of_op_one hr hop] at h
    cases h
    rw [encodeFields, ← hop]

/-- The length field of a request word has `LEN_W` bits, so every length it holds fits. -/
theorem unflattenRequest_wf (lenW : Nat) (w : BitVec (1 + lenW + 128)) :
    (unflattenRequest lenW w).wf lenW = true :=
  decide_eq_true (w.extractLsb' 128 lenW).isLt

theorem decodeWord_toNat (lenW : Nat) (w : BitVec (1 + lenW + 128)) :
    decodeWord lenW w.toNat = decode lenW (unflattenRequest lenW w) := by
  rw [decodeWord, if_pos w.isLt, BitVec.ofNat_toNat, BitVec.setWidth_eq]

/-- Settles O6: reading the word gives the fields back, and decoding the fields the instruction. -/
theorem decodeOfEncode : Obligations.DecodeOfEncode := by
  intro lenW i hi
  have hfields : (encodeFields i).wf lenW = true := (encodeFields_wf lenW i).trans hi
  rw [decodeWord_toNat, encode, unflattenRequest_flattenRequest hfields, decode_encodeFields hi]

/-- Settles O7: the request read from the word always decodes, and its fields make up the whole word. -/
theorem encodeOfDecode : Obligations.EncodeOfDecode := by
  intro lenW w
  obtain ⟨i, hdec, hi⟩ := decode_of_wf (unflattenRequest_wf lenW w)
  refine ⟨i, (decodeWord_toNat lenW w).trans hdec, hi, ?_⟩
  rw [encode, encodeFields_of_decode hdec, flattenRequest_unflattenRequest]

/-- Settles O8: the two branches of the decoder. -/
theorem opSelectsOperation : Obligations.OpSelectsOperation :=
  ⟨BitVec.eq_zero_or_eq_one, fun _ _ hr => ⟨decode_of_op_zero hr, decode_of_op_one hr⟩⟩

/-! ### The fields of the two words -/

/-- Whatever stands above the bus, lane `i` is at bits `[8*i + 7 : 8*i]`. -/
theorem extractLsb'_append_laneBus {v : Nat} (x : BitVec v) (l : Lanes) {i : Nat} (hi : i < 16) :
    (x ++ laneBus l).extractLsb' (8 * i) 8 = byteAt l i := by
  rw [BitVec.extractLsb'_append_eq_of_add_le (by omega), extractLsb'_laneBus l hi]

/-- Settles O9: the lanes are those of the bus below the other fields; `len` and `op` are what reading the word gives
back. -/
theorem requestWordFields : Obligations.RequestWordFields := by
  intro lenW r hr
  have hread := unflattenRequest_flattenRequest hr
  exact ⟨by omega, fun _ => extractLsb'_append_laneBus _ r.din, congrArg Request.len hread,
    congrArg Request.op hread⟩

theorem flattenResponse_dout (lenW : Nat) (r : Response) :
    (flattenResponse lenW r).extractLsb' 0 128 = laneBus r.dout :=
  BitVec.extractLsb'_append_eq_right

theorem flattenResponse_status (lenW : Nat) (r : Response) :
    (flattenResponse lenW r).extractLsb' 128 2 = r.status.code := by
  rw [flattenResponse, BitVec.extractLsb'_append_eq_of_le le_rfl]
  exact BitVec.extractLsb'_append_eq_right

theorem flattenResponse_errExpected {lenW : Nat} {r : Response} (h : r.errExpected < 2 ^ lenW) :
    ((flattenResponse lenW r).extractLsb' 130 lenW).toNat = r.errExpected := by
  have hfield : (flattenResponse lenW r).extractLsb' 130 lenW = BitVec.ofNat lenW r.errExpected := by
    rw [flattenResponse, BitVec.extractLsb'_append_eq_of_le (by omega),
      BitVec.extractLsb'_append_eq_of_le (by omega)]
    exact BitVec.extractLsb'_append_eq_right
  rw [hfield, BitVec.toNat_ofNat, Nat.mod_eq_of_lt h]

theorem flattenResponse_errActual {lenW : Nat} {r : Response} (h : r.errActual < 2 ^ lenW) :
    ((flattenResponse lenW r).extractLsb' (130 + lenW) lenW).toNat = r.errActual := by
  have hfield : (flattenResponse lenW r).extractLsb' (130 + lenW) lenW = BitVec.ofNat lenW r.errActual := by
    rw [flattenResponse, BitVec.extractLsb'_append_eq_of_le (by omega),
      BitVec.extractLsb'_append_eq_of_le (by omega), show 130 + lenW - 128 - 2 = lenW by omega]
    exact BitVec.extractLsb'_append_eq_left
  rw [hfield, BitVec.toNat_ofNat, Nat.mod_eq_of_lt h]

/-- Settles O10: one lemma for each field. -/
theorem responseWordFields : Obligations.ResponseWordFields :=
  fun lenW r hexpected hactual =>
    ⟨by omega, fun _ => extractLsb'_append_laneBus _ r.dout, flattenResponse_status lenW r,
      flattenResponse_errExpected hexpected, flattenResponse_errActual hactual⟩

/-! ### A consumer's reading of the response -/

theorem statusOfCode_code (st : Status) : statusOfCode st.code = .ok st := by
  cases st <;> rfl

theorem statusOfCode_eq_error_iff (c : BitVec 2) : statusOfCode c = .error .reservedStatus ↔ c = 3#2 := by
  revert c
  decide

theorem code_ne_three (st : Status) : st.code ≠ 3#2 := by
  cases st <;> decide

/-- A consumer's reading stops where the number of the status does, and nowhere else. -/
theorem readResponse_eq_error_iff {lenW : Nat} {w : BitVec (lenW + lenW + 2 + 128)} {f : Fault} :
    readResponse lenW w = .error f ↔ statusOfCode (w.extractLsb' 128 2) = .error f := by
  rw [readResponse]
  cases statusOfCode (w.extractLsb' 128 2) <;> simp

theorem readResponse_of_status {lenW : Nat} {w : BitVec (lenW + lenW + 2 + 128)} {st : Status}
    (h : statusOfCode (w.extractLsb' 128 2) = .ok st) :
    readResponse lenW w = .ok ⟨st, busLanes (w.extractLsb' 0 128), (w.extractLsb' 130 lenW).toNat,
      (w.extractLsb' (130 + lenW) lenW).toNat⟩ := by
  rw [readResponse, h]

/-- Settles O11: each field read is the field written. -/
theorem responseWordRoundTrip : Obligations.ResponseWordRoundTrip := by
  intro lenW r hexpected hactual
  have hstatus : statusOfCode ((flattenResponse lenW r).extractLsb' 128 2) = .ok r.status := by
    rw [flattenResponse_status, statusOfCode_code]
  rw [readResponse_of_status hstatus, flattenResponse_dout, busLanes_laneBus,
    flattenResponse_errExpected hexpected, flattenResponse_errActual hactual]

/-- Settles O12: 3 is the one number that names no status, and no status has it. -/
theorem reservedStatusIsAFault : Obligations.ReservedStatusIsAFault := by
  refine ⟨rfl, rfl, rfl, fun lenW => ⟨fun w => ?fault, fun r => ?written⟩⟩
  case fault => exact readResponse_eq_error_iff.trans (statusOfCode_eq_error_iff _)
  case written =>
    rw [flattenResponse_status]
    exact code_ne_three r.status

theorem responseLines_of_rspOut {s : State} {r : Response} (h : s.rspOut = some r) :
    responseLines s = flattenResponse s.cfg.lenW r := by
  rw [responseLines, h]

theorem result_eq_some_iff {r : Response} {d : Lanes} : r.result = some d ↔ r.status = .ok ∧ d = r.dout := by
  rw [Response.result]
  cases r.status <;> simp [eq_comm]

/-- Settles O47: the lines hold the carried word, and only an `OK` status lets `dout` be read. -/
theorem responseLinesCarryTheWord : Obligations.ResponseLinesCarryTheWord :=
  ⟨fun _ _ => responseLines_of_rspOut, fun _ _ => result_eq_some_iff⟩

/-! ### Presenting a byte sequence to UNPACK -/

/-- UNPACK reads no lane when the length is not 16 (spec/41_unpack.md R121). -/
theorem exec_unpack_of_len_ne {len : Nat} (h : len ≠ 16) (din din' : Lanes) (s : State) :
    exec (.unpack len din) s = exec (.unpack len din') s := by
  have hanswer : answer (.unpack len din) = answer (.unpack len din') := by
    rw [answer, answer, if_pos h, if_pos h]
  by_cases hlen : len < 2 ^ s.cfg.lenW
  · have hwf (d : Lanes) : (Instr.unpack len d).wf s.cfg.lenW = true := decide_eq_true hlen
    rw [exec_of_wf (hwf din), exec_of_wf (hwf din'), hanswer]
  · rw [exec_unpack_of_not_wf hlen, exec_unpack_of_not_wf hlen]

/-- Sixteen bytes fill every lane. -/
theorem assembleUnpack_of_length_eq {bytes : List Byte} (h : bytes.length = 16) (fill fill' : Lanes) :
    assembleUnpack bytes fill = assembleUnpack bytes fill' := by
  have hlanes (i : Fin 16) : bytes.getD i.val (fill.get i) = bytes.getD i.val (fill'.get i) := by
    have hi : i.val < bytes.length := h.symm ▸ i.isLt
    rw [List.getD_eq_getElem _ _ hi, List.getD_eq_getElem _ _ hi]
  simp only [assembleUnpack, hlanes]

/-- The lanes a byte sequence does not fill never matter: at 16 bytes there is none, and at any other length UNPACK
reads none. -/
theorem exec_assembleUnpack_fill (bytes : List Byte) (fill fill' : Lanes) (s : State) :
    exec (assembleUnpack bytes fill) s = exec (assembleUnpack bytes fill') s := by
  by_cases h : bytes.length = 16
  · rw [assembleUnpack_of_length_eq h fill fill']
  · exact exec_unpack_of_len_ne h _ _ s

/-- Settles O25: how the sequence is presented, the two facts about lanes, and the refusal of a length that does not
fit. -/
theorem unpackPresentsAByteSequence : Obligations.UnpackPresentsAByteSequence :=
  fun s bytes fill fill' =>
    ⟨assembleUnpack_presents bytes fill, exec_assembleUnpack_fill bytes fill fill' s,
      fun h din din' => exec_unpack_of_len_ne h din din' s,
      fun hlen => exec_unpack_of_not_wf (Nat.not_lt.mpr hlen)⟩

/-! ### What the two results look like -/

/-- PACK leaves the padding, stream positions 122 to 127, at 0 (spec/40_pack.md R102). -/
theorem bitAt_payloadOf_padding (u : Lanes) {i : Nat} (h₁ : 2 ≤ i) (h₂ : i < 8) :
    bitAt (payloadOf u) 15 i = false := by
  have h := bitAt_payloadOf u (j := 120 + i) (by omega)
  rwa [scanOf_eq_none (by omega), show (120 + i) / 8 = 15 by omega, show (120 + i) % 8 = i by omega] at h

theorem validPayload_payloadOf (u : Lanes) : ValidPayload (payloadOf u) := by
  apply BitVec.eq_of_getLsbD_eq
  intro i hi
  rw [BitVec.getLsbD_and, byteAt_getLsbD, BitVec.getLsbD_zero]
  by_cases h : 2 ≤ i
  · rw [bitAt_payloadOf_padding u h hi, Bool.false_and]
  · have hmask : ∀ i < 2, (0b11111100#8).getLsbD i = false := by decide
    rw [hmask i (by omega), Bool.and_false]

/-- UNPACK fills a fixed bit, given by its byte and bit, from the table (spec/41_unpack.md R123). -/
theorem bitAt_identifierOf_fixed (p : Lanes) {b i : Nat} (hb : b < 16) (hi : i < 8) {v : Bool}
    (hv : fixedValue b i = some v) : bitAt (identifierOf p) b i = v := by
  have h := bitAt_identifierOf_of_fixedValue p (k := 8 * b + (7 - i)) (v := v) (by omega)
  rw [byteOf_scanPosition b hi, bitOf_scanPosition b hi] at h
  exact h hv

/-- UNPACK's result holds the pattern of every table entry under its mask. -/
theorem identifierOf_and_mask (p : Lanes) :
    ∀ e ∈ fixedBitTable, byteAt (identifierOf p) e.byteIndex &&& e.mask = e.pattern := by
  intro e he
  apply BitVec.eq_of_getLsbD_eq
  intro i hi
  rw [BitVec.getLsbD_and, byteAt_getLsbD]
  cases hmask : e.mask.getLsbD i with
  | true =>
    have hvalue : fixedValue e.byteIndex i = some (e.pattern.getLsbD i) :=
      fixedValue_of_names he (names_iff.mpr ⟨rfl, hmask⟩)
    rw [Bool.and_true, bitAt_identifierOf_fixed p e.byteIndex.isLt hi hvalue]
  | false =>
    have houtside := congrArg (fun v : Byte => v.getLsbD i) (fixedBitTable_pattern_within_mask e he)
    simp only [BitVec.getLsbD_and, BitVec.getLsbD_not, BitVec.getLsbD_zero, hi, hmask, decide_true, Bool.not_false,
      Bool.and_true] at houtside
    rw [Bool.and_false, houtside]

/-- The two entries of the table are the two parts of being canonical (spec/41_unpack.md R125). -/
theorem canonical_identifierOf (p : Lanes) : Canonical (identifierOf p) := by
  have h := identifierOf_and_mask p
  simp only [fixedBitTable, List.forall_mem_cons] at h
  obtain ⟨hversion, hvariant, -⟩ := h
  exact ⟨hversion, hvariant⟩

/-! ### The invariant -/

theorem conforms_ok (lenW : Nat) {d : Lanes} (h : ValidPayload d ∨ Canonical d) :
    Response.Conforms lenW ⟨.ok, d, 0, 0⟩ :=
  ⟨fun _ => ⟨rfl, rfl, h⟩, nofun, nofun⟩

theorem conforms_invalidLength {lenW len : Nat} (h16 : len ≠ 16) (hlen : len < 2 ^ lenW) :
    Response.Conforms lenW ⟨.invalidLength, zeroLanes, 16, len⟩ :=
  ⟨nofun, fun _ => ⟨rfl, rfl, h16, hlen⟩, nofun⟩

theorem conforms_nonzeroPadding (lenW : Nat) : Response.Conforms lenW ⟨.nonzeroPadding, zeroLanes, 0, 0⟩ :=
  ⟨nofun, nofun, fun _ => ⟨rfl, rfl, rfl⟩⟩

/-- Every response an operation gives has the field values its status allows (spec/30_encoding.md R67). -/
theorem answer_conforms {lenW : Nat} {i : Instr} (hi : i.wf lenW = true) : (answer i).Conforms lenW := by
  cases i with
  | pack len din => exact conforms_ok lenW (.inl (validPayload_payloadOf din))
  | unpack len din =>
    have hlen : len < 2 ^ lenW := by simpa [Instr.wf] using hi
    rw [answer]
    split_ifs with h16 hpad
    · exact conforms_invalidLength h16 hlen
    · exact conforms_ok lenW (.inr (canonical_identifierOf din))
    · exact conforms_nonzeroPadding lenW

/-- Settles O41: of the five things a step can do, only a request adds a response, the one its operation gives; an
emission moves one that conforms already, and the assertion of reset leaves none. -/
theorem stepKeepsInvariant : Obligations.StepKeepsInvariant := by
  intro s t ⟨hpending, _, hreset⟩ hstep
  obtain ⟨-, rfl⟩ | ⟨q, i, -, hr, hdec, rfl⟩ | ⟨r, rest, -, hr, hf, rfl⟩ | ⟨-, rfl⟩ | ⟨-, rfl⟩ :=
    step_next_cases hstep
  · exact ⟨hpending, by simp, fun h => ⟨(hreset h).left, rfl⟩⟩
  · obtain ⟨-, hi⟩ := wf_of_decode hdec
    refine ⟨List.forall_mem_append.mpr ⟨hpending, List.forall_mem_singleton.mpr (answer_conforms hi)⟩,
      by simp, by simp [hr]⟩
  · rw [hf, List.forall_mem_cons] at hpending
    obtain ⟨hfirst, hrest⟩ := hpending
    exact ⟨hrest, by simpa using hfirst, by simp [hr]⟩
  · simp [State.Inv]
  · exact ⟨hpending, by simp, by simp⟩

end Sys2Proof.Machine
end

section
/-! PACK's result bit by bit, and its two closed forms (spec/40_pack.md R101, R107, R108). -/

namespace Sys2Proof.Machine

/-! ### Where PACK copies each bit from -/

/-- The three ranges of R27 in one statement: free scan position `k` goes to stream position `k`, `k - 4` or `k - 6`. -/
theorem freeIndex_eq_some_iff_shift {k j : Nat} :
    freeIndex k = some j ↔
      (k ≤ 47 ∧ k = j) ∨ (52 ≤ k ∧ k ≤ 63 ∧ k = j + 4) ∨ (66 ≤ k ∧ k ≤ 127 ∧ k = j + 6) := by
  unfold freeIndex
  split_ifs <;> simp only [Option.some.injEq, false_iff] <;> omega

/-- Every stream position below 122 holds a free bit. -/
theorem exists_freeIndex_eq {j : Nat} (hj : j < 122) : ∃ k, freeIndex k = some j := by
  obtain h | ⟨h₁, h₂⟩ | h : j ≤ 47 ∨ (48 ≤ j ∧ j ≤ 59) ∨ 60 ≤ j := by omega
  · exact ⟨j, freeIndex_eq_some_iff.mpr (scanOf_first h)⟩
  · exact ⟨j + 4, freeIndex_eq_some_iff.mpr (scanOf_between h₁ h₂)⟩
  · exact ⟨j + 6, freeIndex_eq_some_iff.mpr (scanOf_last h (by omega))⟩

/-- Bit `i` of byte `b` of PACK's result is bit `i'` of byte `b'` of the identifier, where that bit's scan position has
the stream position of the first. -/
theorem bitAt_payloadOf_of_copied (u : Lanes) {b i b' i' : Nat} (hi : i < 8) (hi' : i' < 8)
    (h : freeIndex (8 * b' + (7 - i')) = some (8 * b + i)) : bitAt (payloadOf u) b i = bitAt u b' i' := by
  have hcopy := bitAt_payloadOf_of_freeIndex u h
  rwa [byteOf_scanPosition b' hi', bitOf_scanPosition b' hi', show (8 * b + i) / 8 = b by omega,
    show (8 * b + i) % 8 = i by omega] at hcopy

/-- Settles O15: the walk numbers 122 free positions, and no stream position from 122 on holds one. -/
theorem packAppends122Bits : Obligations.PackAppends122Bits := by
  refine fun u => ⟨packScan_count u, fun j h₁ h₂ => ?_⟩
  rw [bitAt_payloadOf u (by omega), scanOf_eq_none h₁, Option.map_none, Option.getD_none]

/-! ### The byte form -/

/-- The joint of two neighbouring bytes in R107: `x` shifted up by `m` above the upper `m` bits of `y`, reversed, holds
the lower bits of `x` first and then the upper bits of `y`. -/
theorem getLsbD_rev8_joint (x y : Byte) {m i : Nat} (hm : m ≤ 8) (hi : i < 8) :
    (rev8 (x <<< m ||| y >>> (8 - m))).getLsbD i =
      if i < 8 - m then x.getLsbD (7 - i - m) else y.getLsbD (8 - m + (7 - i)) := by
  rw [getLsbD_rev8 _ hi, BitVec.getLsbD_or, BitVec.getLsbD_shiftLeft, BitVec.getLsbD_ushiftRight,
    decide_eq_true (show 7 - i < 8 by omega)]
  split_ifs with h
  · rw [decide_eq_false (show ¬ 7 - i < m by omega), BitVec.getLsbD_of_ge y _ (by omega)]
    simp
  · rw [decide_eq_true (show 7 - i < m by omega)]
    simp

theorem and_low_nibble_shiftLeft (x : Byte) : (x &&& 0x0F#8) <<< 4 = x <<< 4 := by
  revert x; decide +kernel

theorem and_low_pair_shiftLeft (x : Byte) : (x &&& 0x03#8) <<< 6 = x <<< 6 := by
  revert x; decide +kernel

theorem ushiftRight_and_low_nibble (x : Byte) : (x >>> 2) &&& 0x0F#8 = (x <<< 2) >>> 4 := by
  revert x; decide +kernel

theorem byteAt_packBytes_of_lt_six (u : Lanes) {b : Nat} (hb : b < 6) :
    byteAt (packBytes u) b = rev8 (byteAt u b) := by
  rw [byteAt_eq_getElem u (by omega)]
  interval_cases b <;> rfl

theorem byteAt_packBytes_six (u : Lanes) :
    byteAt (packBytes u) 6 = rev8 (byteAt u 6 <<< 4 ||| byteAt u 7 >>> 4) := by
  rw [← and_low_nibble_shiftLeft, byteAt_eq_getElem u (b := 6) (by omega), byteAt_eq_getElem u (b := 7) (by omega)]
  rfl

theorem byteAt_packBytes_seven (u : Lanes) :
    byteAt (packBytes u) 7 = rev8 (byteAt u 7 <<< 4 ||| (byteAt u 8 <<< 2) >>> 4) := by
  rw [← and_low_nibble_shiftLeft, ← ushiftRight_and_low_nibble, byteAt_eq_getElem u (b := 7) (by omega),
    byteAt_eq_getElem u (b := 8) (by omega)]
  rfl

theorem byteAt_packBytes_of_ge_eight (u : Lanes) {b : Nat} (h₁ : 8 ≤ b) (h₂ : b < 15) :
    byteAt (packBytes u) b = rev8 (byteAt u b <<< 6 ||| byteAt u (b + 1) >>> 2) := by
  rw [← and_low_pair_shiftLeft, byteAt_eq_getElem u (b := b) (by omega),
    byteAt_eq_getElem u (b := b + 1) (by omega)]
  interval_cases b <;> rfl

theorem byteAt_packBytes_fifteen (u : Lanes) :
    byteAt (packBytes u) 15 = rev8 (byteAt u 15 <<< 6 ||| 0#8 >>> 2) := by
  rw [← and_low_pair_shiftLeft, byteAt_eq_getElem u (b := 15) (by omega), BitVec.zero_ushiftRight, BitVec.or_zero]
  rfl

/-- Settles O17: row by row of R107, each bit of the byte form is the one PACK copies there, and above the two bits of
byte 15 is the padding. -/
theorem packEqualsByteForm : Obligations.PackEqualsByteForm := by
  refine fun u => lanes_ext fun b hb i hi => ?_
  rw [← byteAt_getLsbD (packBytes u)]
  obtain h | rfl | rfl | ⟨h₁, h₂⟩ | rfl : b < 6 ∨ b = 6 ∨ b = 7 ∨ (8 ≤ b ∧ b < 15) ∨ b = 15 := by omega
  · rw [byteAt_packBytes_of_lt_six u h, getLsbD_rev8 _ hi]
    exact bitAt_payloadOf_of_copied u hi (by omega) (freeIndex_eq_some_iff_shift.mpr (by omega))
  · rw [byteAt_packBytes_six, getLsbD_rev8_joint _ _ (m := 4) (by omega) hi]
    split_ifs <;> exact bitAt_payloadOf_of_copied u hi (by omega) (freeIndex_eq_some_iff_shift.mpr (by omega))
  · rw [byteAt_packBytes_seven, getLsbD_rev8_joint _ _ (m := 4) (by omega) hi]
    split_ifs
    · exact bitAt_payloadOf_of_copied u hi (by omega) (freeIndex_eq_some_iff_shift.mpr (by omega))
    · have hbelow : (byteAt u 8 <<< 2).getLsbD (8 - 4 + (7 - i)) = bitAt u 8 (9 - i) := by
        rw [BitVec.getLsbD_shiftLeft, decide_eq_true (by omega), decide_eq_false (by omega),
          show 8 - 4 + (7 - i) - 2 = 9 - i by omega, Bool.not_false, Bool.true_and, Bool.true_and, byteAt_getLsbD]
      rw [hbelow]
      exact bitAt_payloadOf_of_copied u hi (by omega) (freeIndex_eq_some_iff_shift.mpr (by omega))
  · rw [byteAt_packBytes_of_ge_eight u h₁ h₂, getLsbD_rev8_joint _ _ (m := 6) (by omega) hi]
    split_ifs <;> exact bitAt_payloadOf_of_copied u hi (by omega) (freeIndex_eq_some_iff_shift.mpr (by omega))
  · rw [byteAt_packBytes_fifteen, getLsbD_rev8_joint _ _ (m := 6) (by omega) hi]
    split_ifs
    · exact bitAt_payloadOf_of_copied u hi (by omega) (freeIndex_eq_some_iff_shift.mpr (by omega))
    · rw [bitAt_payloadOf_padding u (by omega) hi, BitVec.getLsbD_zero]

/-! ### The numeric form -/

/-- `W` is the identifier's number with bits 62 and 63 and bits 76 to 79 left out. -/
theorem getLsbD_closedNumber (u : Lanes) {n : Nat} (hn : n < 122) :
    (closedNumber u).getLsbD n =
      (identifierNumber u).testBit (if n < 62 then n else if n < 74 then n + 2 else n + 6) := by
  simp only [closedNumber, BitVec.getLsbD_append, BitVec.getLsbD_extractLsb', BitVec.getLsbD_ofNat,
    show n - 62 < 12 ↔ n < 74 by omega]
  split_ifs with h₁ h₂
  · simp [h₁, show n < 128 by omega]
  · simp [h₂, show 64 + (n - 62) = n + 2 by omega, show n + 2 < 128 by omega]
  · simp [show n - 62 - 12 < 48 by omega, show 80 + (n - 62 - 12) = n + 6 by omega, show n + 6 < 128 by omega]

/-- Bit `121 - j` of `W` is free bit `j`. -/
theorem getLsbD_closedNumber_of_freeIndex (u : Lanes) {k j : Nat} (h : freeIndex k = some j) :
    (closedNumber u).getLsbD (121 - j) = bitAt u (byteOf k) (bitOf k) := by
  obtain ⟨hk, hj, -⟩ := scanOf_freeIndex h
  have hshift := freeIndex_eq_some_iff_shift.mp h
  rw [getLsbD_closedNumber u (by omega), ← testBit_identifierNumber u hk]
  congr 1
  split_ifs <;> omega

/-- Reversing `W` puts its bit `121 - j` at `j` and nothing above. -/
theorem testBit_packNumber (u : Lanes) (j : Nat) :
    (packNumber u).testBit j = if j < 122 then (closedNumber u).getLsbD (121 - j) else false := by
  rw [packNumber, BitVec.testBit_toNat, BitVec.getLsbD_reverse, BitVec.getMsbD_eq_getLsbD]
  split_ifs with h <;> simp [h]

/-- The payload's number is `W` reversed too: its bit `j` is free bit `j`, and from bit 122 on is padding. -/
theorem testBit_payloadNumber_payloadOf (u : Lanes) (j : Nat) :
    (payloadNumber (payloadOf u)).testBit j = if j < 122 then (closedNumber u).getLsbD (121 - j) else false := by
  split_ifs with hj
  · obtain ⟨k, hfree⟩ := exists_freeIndex_eq hj
    rw [testBit_payloadNumber _ (by omega), bitAt_payloadOf_of_freeIndex u hfree,
      getLsbD_closedNumber_of_freeIndex u hfree]
  · have hlt := payloadNumber_lt_of_validPayload (validPayload_payloadOf u)
    exact Nat.testBit_eq_false_of_lt (hlt.trans_le (Nat.pow_le_pow_right (by omega) (by omega)))

/-- Settles O18: both numbers have bit `121 - j` of `W` at `j`, and nothing above bit 121. -/
theorem packEqualsNumericForm : Obligations.PackEqualsNumericForm := by
  refine fun u => ⟨Nat.eq_of_testBit_eq fun j => ?_, fun j _ => testBit_payloadNumber_payloadOf u j⟩
  rw [testBit_payloadNumber_payloadOf, testBit_packNumber]

end Sys2Proof.Machine
end

section
/-! The response of PACK, which bits of an identifier it keeps, and the identifiers that share a payload
(spec/40_pack.md R102 to R106). -/

namespace Sys2Proof.Machine

/-! ### The free bits and the payload determine each other -/

/-- PACK reads the free bits only and keeps all of them (spec/40_pack.md R103, R105). -/
theorem payloadOf_eq_iff_sameFreeBits {u v : Lanes} : payloadOf u = payloadOf v ↔ SameFreeBits u v := by
  constructor
  · intro h k hk hfree
    obtain ⟨j, hj⟩ := exists_freeIndex hk hfree
    rw [← bitAt_payloadOf_of_freeIndex u hj, h, bitAt_payloadOf_of_freeIndex v hj]
  · intro h
    refine lanes_ext_stream fun j hj => ?_
    rw [bitAt_payloadOf u hj, bitAt_payloadOf v hj]
    cases hscan : scanOf j with
    | none => rfl
    | some k =>
      obtain ⟨-, hk, -, hfree⟩ := freeIndex_scanOf hscan
      rw [Option.map_some, Option.map_some, h k hk hfree]

/-- Settles O16: PACK never reads its length, and identifiers with the same free bits have one payload. -/
theorem packIgnoresFixedBitsAndLength : Obligations.PackIgnoresFixedBitsAndLength := by
  intro s len len' u v h
  rw [exec_pack, exec_pack, payloadOf_eq_iff_sameFreeBits.mpr h]

/-! ### The response of PACK -/

theorem exec_pack_of_not_inReset {s : State} (hr : s.inReset = false) (len : Nat) (din : Lanes) :
    exec (.pack len din) s = .next (s.withResponse ⟨.ok, payloadOf din, 0, 0⟩) := by
  rw [exec_pack, hr, if_neg Bool.false_ne_true]

/-- The length 16 fits every `LEN_W` (spec/00_scope.md R7). -/
theorem unpack_sixteen_wf (c : Config) (din : Lanes) : (Instr.unpack 16 din).wf c.lenW = true := by
  have hlen : 2 ^ 5 ≤ 2 ^ c.lenW := Nat.pow_le_pow_right (by omega) (Nat.le_add_right 5 c.lenExtra)
  exact decide_eq_true (show 16 < 2 ^ c.lenW by omega)

/-- UNPACK accepts every valid payload presented with length 16 (spec/41_unpack.md R122). -/
theorem exec_unpack_of_validPayload {s : State} (hr : s.inReset = false) {p : Lanes} (hp : ValidPayload p) :
    exec (.unpack 16 p) s = .next (s.withResponse ⟨.ok, identifierOf p, 0, 0⟩) := by
  have hpad : paddingZero p = true := beq_iff_eq.mpr hp
  have hanswer : answer (.unpack 16 p) = ⟨.ok, identifierOf p, 0, 0⟩ := by
    rw [answer, if_neg (by omega), if_pos hpad]
  rw [exec_of_wf (unpack_sixteen_wf s.cfg p), hr, if_neg Bool.false_ne_true, hanswer]

/-- Settles O14: the one response, the copied bits, the padding, and UNPACK's acceptance of it. -/
theorem packAnswersThePayload : Obligations.PackAnswersThePayload := by
  intro s len din hr
  refine ⟨exec_pack_of_not_inReset hr len din, fun k hk hfree => ?copied, validPayload_payloadOf din,
    fun t ht => ⟨_, exec_unpack_of_validPayload ht (validPayload_payloadOf din)⟩⟩
  case copied =>
    obtain ⟨j, hj⟩ := exists_freeIndex hk hfree
    obtain ⟨-, hlt, -⟩ := scanOf_freeIndex hj
    exact ⟨j, hlt, hj, bitAt_payloadOf_of_freeIndex din hj⟩

/-! ### PACK and UNPACK undo each other -/

/-- PACK gives back the valid payload an identifier was rebuilt from. -/
theorem payloadOf_identifierOf {p : Lanes} (hp : ValidPayload p) : payloadOf (identifierOf p) = p := by
  refine lanes_ext_stream fun j hj => ?_
  by_cases h : j < 122
  · obtain ⟨k, hk⟩ := exists_freeIndex_eq h
    rw [bitAt_payloadOf_of_freeIndex _ hk, bitAt_identifierOf_of_freeIndex p hk]
  · rw [bitAt_padding_of_validPayload (validPayload_payloadOf _) (Nat.not_lt.mp h) hj,
      bitAt_padding_of_validPayload hp (Nat.not_lt.mp h) hj]

/-- A canonical identifier holds every entry's pattern under its mask (spec/00_scope.md R15). -/
theorem and_mask_of_canonical {u : Lanes} (h : Canonical u) :
    ∀ e ∈ fixedBitTable, byteAt u e.byteIndex &&& e.mask = e.pattern := by
  obtain ⟨hversion, hvariant⟩ := h
  simpa [fixedBitTable] using ⟨hversion, hvariant⟩

/-- The fixed bits of a canonical identifier are the table's values. -/
theorem fixedValue_of_canonical {u : Lanes} (h : Canonical u) {b i : Nat} (hfix : isFixed b i = true) :
    fixedValue b i = some (bitAt u b i) := by
  obtain ⟨e, he, rfl, hmask⟩ := isFixed_iff.mp hfix
  rw [fixedValue_of_names he (names_iff.mpr ⟨rfl, hmask⟩), ← and_mask_of_canonical h e he, BitVec.getLsbD_and, hmask,
    Bool.and_true, byteAt_getLsbD]

/-- UNPACK gives back the canonical identifier that was packed. -/
theorem identifierOf_payloadOf {u : Lanes} (hu : Canonical u) : identifierOf (payloadOf u) = u := by
  refine lanes_ext_scan fun k hk => ?_
  cases hfix : isFixed (byteOf k) (bitOf k) with
  | true => exact bitAt_identifierOf_of_fixedValue _ hk (fixedValue_of_canonical hu hfix)
  | false =>
    obtain ⟨j, hj⟩ := exists_freeIndex hk hfix
    rw [bitAt_identifierOf_of_freeIndex _ hj, bitAt_payloadOf_of_freeIndex u hj]

/-- Each valid payload has one canonical input: the identifier UNPACK rebuilds. -/
theorem existsUnique_canonical_payloadOf_eq {p : Lanes} (hp : ValidPayload p) :
    ∃! u : Lanes, payloadOf u = p ∧ Canonical u := by
  refine ⟨identifierOf p, ⟨payloadOf_identifierOf hp, canonical_identifierOf p⟩, ?_⟩
  rintro u ⟨rfl, hu⟩
  exact (identifierOf_payloadOf hu).symm

/-! ### The sixty-four inputs of a payload -/

/-- A fixed scan position (spec/10_state.md R26). -/
abbrev FixedPosition := {k : Fin 128 // isFixed (byteOf k) (bitOf k) = true}

/-- What an identifier holds at the fixed positions: the part of it that PACK discards. -/
def fixedBits (u : Lanes) : FixedPosition → Bool := fun k => bitAt u (byteOf k.val) (bitOf k.val)

/-- The operand with given bits in scan order. -/
def lanesOfScan (f : Fin 128 → Bool) : Lanes :=
  Vector.ofFn fun b => BitVec.ofFnLE fun i : Fin 8 => f ⟨8 * b.val + (7 - i.val), by omega⟩

/-- `u` with given bits at the fixed positions. -/
def withFixedBits (u : Lanes) (c : FixedPosition → Bool) : Lanes :=
  lanesOfScan fun k => if h : isFixed (byteOf k) (bitOf k) = true then c ⟨k, h⟩ else bitAt u (byteOf k) (bitOf k)

theorem bitAt_lanesOfScan (f : Fin 128 → Bool) (k : Fin 128) :
    bitAt (lanesOfScan f) (byteOf k) (bitOf k) = f k := by
  have hbyte : byteOf k < 16 := by unfold byteOf; omega
  have hbit : bitOf k < 8 := by unfold bitOf; omega
  rw [bitAt, lanesOfScan, byteAt_ofFn _ hbyte, BitVec.getLsbD_ofFnLE, dif_pos hbit]
  congr 1
  ext
  simp only [byteOf, bitOf]
  omega

/-- There are 64 ways to fill the six fixed positions. -/
theorem card_fixedBits : Nat.card (FixedPosition → Bool) = 64 := by
  have hsix : Fintype.card FixedPosition = 6 := by decide +kernel
  simp [hsix]

theorem fixedBits_withFixedBits (u : Lanes) (c : FixedPosition → Bool) : fixedBits (withFixedBits u c) = c := by
  funext ⟨k, hk⟩
  rw [fixedBits, withFixedBits, bitAt_lanesOfScan, dif_pos hk]

theorem payloadOf_withFixedBits (u : Lanes) (c : FixedPosition → Bool) :
    payloadOf (withFixedBits u c) = payloadOf u := by
  refine payloadOf_eq_iff_sameFreeBits.mpr fun k hk hfree => ?_
  rw [withFixedBits, bitAt_lanesOfScan _ ⟨k, hk⟩, dif_neg (by simp [hfree])]

/-- The payload and the discarded bits together give the identifier back. -/
theorem eq_of_payloadOf_eq_of_fixedBits_eq {u v : Lanes} (hp : payloadOf u = payloadOf v)
    (hf : fixedBits u = fixedBits v) : u = v := by
  refine lanes_ext_scan fun k hk => ?_
  cases hfix : isFixed (byteOf k) (bitOf k) with
  | true => exact congrFun hf ⟨⟨k, hk⟩, hfix⟩
  | false => exact payloadOf_eq_iff_sameFreeBits.mp hp k hk hfix

/-- The inputs of a valid payload correspond one to one to the ways to fill the fixed positions. -/
theorem bijOn_fixedBits {p : Lanes} (hp : ValidPayload p) : Set.BijOn fixedBits {u | payloadOf u = p} Set.univ := by
  refine ⟨Set.mapsTo_univ _ _, fun u hu v hv hf => ?inj, fun c _ => ?surj⟩
  case inj => exact eq_of_payloadOf_eq_of_fixedBits_eq (hu.trans hv.symm) hf
  case surj =>
    have hpayload := (payloadOf_withFixedBits (identifierOf p) c).trans (payloadOf_identifierOf hp)
    exact ⟨withFixedBits (identifierOf p) c, hpayload, fixedBits_withFixedBits _ c⟩

theorem ncard_payloadOf_eq {p : Lanes} (hp : ValidPayload p) : {u : Lanes | payloadOf u = p}.ncard = 64 := by
  rw [(bijOn_fixedBits hp).ncard_eq, Set.ncard_univ, card_fixedBits]

/-- Settles O19: an input is its payload and its six discarded bits, and the canonical one is what UNPACK rebuilds. -/
theorem packMapsSixtyFourInputsToEachPayload : Obligations.PackMapsSixtyFourInputsToEachPayload :=
  ⟨validPayload_payloadOf, fun _ hp => ⟨ncard_payloadOf_eq hp, existsUnique_canonical_payloadOf_eq hp⟩,
    fun _ _ => payloadOf_eq_iff_sameFreeBits⟩

end Sys2Proof.Machine
end

section
/-! UNPACK: which of its three answers a request gets, the rebuilt identifier, and the byte form
(spec/41_unpack.md R121 to R128). -/

namespace Sys2Proof.Machine

/-! ### The byte form -/

/-- The joint of two neighbouring bytes in R128: `rev8 x` shifted up by `m` above the upper `m` bits of `rev8 y` holds,
from bit `m` down, the first `m` stream bits of `y`, and above them the last stream bits of `x`. -/
theorem getLsbD_joint_rev8 (x y : Byte) {m i : Nat} (hm : m ≤ 8) (hi : i < 8) :
    (rev8 x <<< m ||| rev8 y >>> (8 - m)).getLsbD i =
      if i < m then y.getLsbD (m - 1 - i) else x.getLsbD (7 + m - i) := by
  rw [BitVec.getLsbD_or, BitVec.getLsbD_shiftLeft, BitVec.getLsbD_ushiftRight, decide_eq_true hi]
  split_ifs with h
  · rw [decide_eq_true h, getLsbD_rev8 y (by omega), show 7 - (8 - m + i) = m - 1 - i by omega]
    simp
  · rw [decide_eq_false h, BitVec.getLsbD_of_ge (rev8 y) _ (by omega), getLsbD_rev8 x (by omega),
      show 7 - (i - m) = 7 + m - i by omega]
    simp

theorem and_low_six_shiftLeft (x : Byte) : (x &&& 0x3F#8) <<< 2 = x <<< 2 := by
  revert x; decide +kernel

/-- Below the version nibble, byte 6 of R128 is a joint like any other, whatever stands for the byte before. -/
theorem getLsbD_version_or (w x : Byte) {i : Nat} (hi : i < 4) :
    (0x40#8 ||| x >>> 4).getLsbD i = (w <<< 4 ||| x >>> 4).getLsbD i := by
  have hpattern : ∀ i < 4, (0x40#8).getLsbD i = false := by decide
  rw [BitVec.getLsbD_or, BitVec.getLsbD_or, BitVec.getLsbD_shiftLeft, hpattern i hi, decide_eq_true hi]
  simp

/-- Below the variant bits, byte 8 of R128 is a joint like those after it. -/
theorem getLsbD_variant_or (x y : Byte) {i : Nat} (hi : i < 6) :
    (0x80#8 ||| ((x &&& 0x0F#8) <<< 2) ||| (y >>> 6)).getLsbD i = (x <<< 2 ||| y >>> 6).getLsbD i := by
  have hupper : ∀ x : Byte, ∀ i < 6, (0x80#8 ||| ((x &&& 0x0F#8) <<< 2)).getLsbD i = (x <<< 2).getLsbD i := by
    decide +kernel
  rw [BitVec.getLsbD_or, hupper x i hi, ← BitVec.getLsbD_or]

theorem byteAt_unpackBytes_of_lt_six (p : Lanes) {b : Nat} (hb : b < 6) :
    byteAt (unpackBytes p) b = rev8 (byteAt p b) := by
  rw [byteAt_eq_getElem p (by omega)]
  interval_cases b <;> simp [unpackBytes, byteAt_eq_getElem]

theorem byteAt_unpackBytes_six (p : Lanes) : byteAt (unpackBytes p) 6 = 0x40#8 ||| rev8 (byteAt p 6) >>> 4 := by
  simp [unpackBytes, byteAt_eq_getElem]

theorem byteAt_unpackBytes_seven (p : Lanes) :
    byteAt (unpackBytes p) 7 = rev8 (byteAt p 6) <<< 4 ||| rev8 (byteAt p 7) >>> 4 := by
  rw [← and_low_nibble_shiftLeft]
  simp [unpackBytes, byteAt_eq_getElem]

theorem byteAt_unpackBytes_eight (p : Lanes) :
    byteAt (unpackBytes p) 8 =
      0x80#8 ||| ((rev8 (byteAt p 7) &&& 0x0F#8) <<< 2) ||| (rev8 (byteAt p 8) >>> 6) := by
  simp [unpackBytes, byteAt_eq_getElem]

theorem byteAt_unpackBytes_of_ge_nine (p : Lanes) {b : Nat} (h₁ : 9 ≤ b) (h₂ : b < 16) :
    byteAt (unpackBytes p) b = rev8 (byteAt p (b - 1)) <<< 2 ||| rev8 (byteAt p b) >>> 6 := by
  rw [← and_low_six_shiftLeft]
  interval_cases b <;> simp [unpackBytes, byteAt_eq_getElem]

theorem canonical_unpackBytes (p : Lanes) : Canonical (unpackBytes p) := by
  have hversion : ∀ x : Byte, (0x40#8 ||| x >>> 4) &&& 0xF0#8 = 0x40#8 := by decide +kernel
  have hupper : ∀ x : Byte, (0x80#8 ||| ((x &&& 0x0F#8) <<< 2)) &&& 0xC0#8 = 0x80#8 := by decide +kernel
  have hlower : ∀ y : Byte, (y >>> 6) &&& 0xC0#8 = 0#8 := by decide +kernel
  constructor
  · rw [byteAt_unpackBytes_six, hversion]
  · rw [byteAt_unpackBytes_eight, BitVec.and_or_distrib_right, hupper, hlower, BitVec.or_zero]

/-- Of byte 6 only the lower four bits are free, and of byte 8 the lower six. -/
theorem bit_lt_of_not_isFixed {b i : Nat} (hi : i < 8) (h : isFixed b i = false) :
    (b = 6 → i < 4) ∧ (b = 8 → i < 6) := by
  have hsix := (isFixed_iff_six_bits (b := b) hi).not.mp (by simp [h])
  simp only [List.mem_cons, List.not_mem_nil, or_false] at hsix
  omega

/-- The free bits of bytes 6 and 7 of the byte form: each byte joins two payload bytes four bits in. -/
theorem bitAt_unpackBytes_six_seven (p : Lanes) {b i : Nat} (h₁ : 6 ≤ b) (h₂ : b < 8) (hi : i < 8)
    (hfree : isFixed b i = false) :
    bitAt (unpackBytes p) b i = (rev8 (byteAt p (b - 1)) <<< 4 ||| rev8 (byteAt p b) >>> 4).getLsbD i := by
  obtain ⟨hversion, -⟩ := bit_lt_of_not_isFixed hi hfree
  obtain rfl | rfl : b = 6 ∨ b = 7 := by omega
  · rw [bitAt, byteAt_unpackBytes_six, getLsbD_version_or _ _ (hversion rfl)]
  · rw [bitAt, byteAt_unpackBytes_seven]

/-- The free bits of bytes 8 to 15 of the byte form: each byte joins two payload bytes two bits in. -/
theorem bitAt_unpackBytes_of_ge_eight (p : Lanes) {b i : Nat} (h₁ : 8 ≤ b) (h₂ : b < 16) (hi : i < 8)
    (hfree : isFixed b i = false) :
    bitAt (unpackBytes p) b i = (rev8 (byteAt p (b - 1)) <<< 2 ||| rev8 (byteAt p b) >>> 6).getLsbD i := by
  obtain ⟨-, hvariant⟩ := bit_lt_of_not_isFixed hi hfree
  obtain rfl | h₁ : b = 8 ∨ 9 ≤ b := by omega
  · rw [bitAt, byteAt_unpackBytes_eight, getLsbD_variant_or _ _ (hvariant rfl)]
  · rw [bitAt, byteAt_unpackBytes_of_ge_nine p h₁ h₂]

/-- Bit `i` of byte `b` of UNPACK's result is bit `i'` of byte `b'` of the payload, where that bit's stream position is
the one of the first's scan position. -/
theorem bitAt_identifierOf_of_copied (p : Lanes) {b i b' i' : Nat} (hi : i < 8) (hi' : i' < 8)
    (h : freeIndex (8 * b + (7 - i)) = some (8 * b' + i')) : bitAt (identifierOf p) b i = bitAt p b' i' := by
  have hcopy := bitAt_identifierOf_of_freeIndex p h
  rwa [byteOf_scanPosition b hi, bitOf_scanPosition b hi, show (8 * b' + i') / 8 = b' by omega,
    show (8 * b' + i') % 8 = i' by omega] at hcopy

/-- The scan and the byte form agree on every operand: both are canonical, which settles the fixed bits, and row by row
of R128 each free bit of the byte form is the one UNPACK copies there. -/
theorem identifierOf_eq_unpackBytes (p : Lanes) : identifierOf p = unpackBytes p := by
  refine lanes_ext fun b hb i hi => ?_
  cases hfix : isFixed b i with
  | true => exact bitAt_identifierOf_fixed p hb hi (fixedValue_of_canonical (canonical_unpackBytes p) hfix)
  | false =>
    have hbound := bit_lt_of_not_isFixed hi hfix
    obtain h | ⟨h₁, h₂⟩ | h : b < 6 ∨ (6 ≤ b ∧ b < 8) ∨ 8 ≤ b := by omega
    · rw [← byteAt_getLsbD (unpackBytes p), byteAt_unpackBytes_of_lt_six p h, getLsbD_rev8 _ hi]
      exact bitAt_identifierOf_of_copied p hi (by omega) (freeIndex_eq_some_iff_shift.mpr (by omega))
    · rw [bitAt_unpackBytes_six_seven p h₁ h₂ hi hfix, getLsbD_joint_rev8 _ _ (m := 4) (by omega) hi]
      split_ifs <;> exact bitAt_identifierOf_of_copied p hi (by omega) (freeIndex_eq_some_iff_shift.mpr (by omega))
    · rw [bitAt_unpackBytes_of_ge_eight p h hb hi hfix, getLsbD_joint_rev8 _ _ (m := 2) (by omega) hi]
      split_ifs <;> exact bitAt_identifierOf_of_copied p hi (by omega) (freeIndex_eq_some_iff_shift.mpr (by omega))

/-- Settles O24: the two agree on every operand, and so on the valid payloads. -/
theorem unpackEqualsByteForm : Obligations.UnpackEqualsByteForm :=
  fun p _ => identifierOf_eq_unpackBytes p

/-! ### The three answers -/

theorem exec_of_wf_of_not_inReset {i : Instr} {s : State} (hi : i.wf s.cfg.lenW = true) (hr : s.inReset = false) :
    exec i s = .next (s.withResponse (answer i)) := by
  rw [exec_of_wf hi, hr, if_neg Bool.false_ne_true]

theorem paddingZero_iff {din : Lanes} : paddingZero din = true ↔ ValidPayload din := beq_iff_eq

/-- The length check comes first (spec/41_unpack.md R121). -/
theorem answer_unpack_of_len_ne {len : Nat} (h : len ≠ 16) (din : Lanes) :
    answer (.unpack len din) = ⟨.invalidLength, zeroLanes, 16, len⟩ :=
  if_pos h

/-- The padding check comes second (spec/41_unpack.md R122). -/
theorem answer_unpack_of_not_validPayload {din : Lanes} (h : ¬ ValidPayload din) :
    answer (.unpack 16 din) = ⟨.nonzeroPadding, zeroLanes, 0, 0⟩ := by
  rw [answer, if_neg (by omega), if_neg (paddingZero_iff.not.mpr h)]

theorem answer_unpack_of_validPayload {din : Lanes} (h : ValidPayload din) :
    answer (.unpack 16 din) = ⟨.ok, identifierOf din, 0, 0⟩ := by
  rw [answer, if_neg (by omega), if_pos (paddingZero_iff.mpr h)]

/-- Settles O20: the answer is that of the length check. -/
theorem unpackRejectsWrongLength : Obligations.UnpackRejectsWrongLength := by
  intro s len din hr hlen h16
  have hwf : (Instr.unpack len din).wf s.cfg.lenW = true := decide_eq_true hlen
  rw [exec_of_wf_of_not_inReset hwf hr, answer_unpack_of_len_ne h16, State.withResponse]

/-- Settles O21: the answer is that of the padding check. -/
theorem unpackRejectsNonzeroPadding : Obligations.UnpackRejectsNonzeroPadding := by
  intro s din hr hpad
  rw [exec_of_wf_of_not_inReset (unpack_sixteen_wf s.cfg din) hr, answer_unpack_of_not_validPayload hpad,
    State.withResponse]

/-- Settles O22: the one response, what the scan leaves at a fixed and at a free position, and the table's two entries
in the result. -/
theorem unpackRebuildsTheIdentifier : Obligations.UnpackRebuildsTheIdentifier := by
  intro s din hr hpad
  refine ⟨exec_unpack_of_validPayload hr hpad, fun k hk v => bitAt_identifierOf_of_fixedValue din hk,
    fun k hk hfree => ?copied, unpackScan_count din, canonical_identifierOf din⟩
  case copied =>
    obtain ⟨j, hj⟩ := exists_freeIndex hk hfree
    obtain ⟨-, hlt, -⟩ := scanOf_freeIndex hj
    exact ⟨j, hlt, hj, bitAt_identifierOf_of_freeIndex din hj⟩

theorem ne_withResponse (s : State) (r : Response) : s ≠ s.withResponse r := by
  intro h
  simpa using congrArg State.inFlight h

theorem withResponse_injective (s : State) : Function.Injective s.withResponse := by
  intro r r' h
  simpa using congrArg State.inFlight h

/-- A response that an instruction whose length fits adds is its answer. -/
theorem eq_answer_of_exec {i : Instr} {s : State} {r : Response} (hi : i.wf s.cfg.lenW = true)
    (h : exec i s = .next (s.withResponse r)) : r = answer i := by
  rw [exec_of_wf hi, Host.Outcome.next.injEq] at h
  split_ifs at h
  · exact absurd h (ne_withResponse s r)
  · exact (withResponse_injective s h).symm

theorem canonical_of_answer_unpack_ok {len : Nat} {din : Lanes} (h : (answer (.unpack len din)).status = .ok) :
    Canonical (answer (.unpack len din)).dout := by
  by_cases h16 : len = 16
  · subst h16
    by_cases hpad : ValidPayload din
    · rw [answer_unpack_of_validPayload hpad]
      exact canonical_identifierOf din
    · rw [answer_unpack_of_not_validPayload hpad] at h
      cases h
  · rw [answer_unpack_of_len_ne h16] at h
    cases h

/-- Settles O23: the response added is the answer, which is `OK` only with a rebuilt identifier. -/
theorem unpackOutputIsCanonical : Obligations.UnpackOutputIsCanonical := by
  intro s len din r hexec hok
  by_cases hlen : len < 2 ^ s.cfg.lenW
  · have hwf : (Instr.unpack len din).wf s.cfg.lenW = true := decide_eq_true hlen
    obtain rfl := eq_answer_of_exec hwf hexec
    exact canonical_of_answer_unpack_ok hok
  · rw [exec_unpack_of_not_wf hlen] at hexec
    cases hexec

/-! ### Errors -/

/-- Settles O27: the response is the answer, and each of the four answers meets every clause. -/
theorem errorCausesAndPriority : Obligations.ErrorCausesAndPriority := by
  intro s i hr hi
  refine ⟨answer i, exec_of_wf_of_not_inReset hi hr, ?_⟩
  cases i with
  | pack len din => simp [answer]
  | unpack len din =>
    by_cases h16 : len = 16
    · subst h16
      by_cases hpad : ValidPayload din
      · rw [answer_unpack_of_validPayload hpad]
        simp [hpad]
      · rw [answer_unpack_of_not_validPayload hpad]
        simp [hpad]
    · rw [answer_unpack_of_len_ne h16]
      simp [h16]

end Sys2Proof.Machine
end

section
/-! The laws that tie PACK and UNPACK together (spec/42_laws.md R150 to R154). -/

namespace Sys2Proof.Machine

/-! ### Normalizing an identifier -/

theorem byteAt_normalizeIdentifier_six (u : Lanes) :
    byteAt (normalizeIdentifier u) 6 = (byteAt u 6 &&& 0x0F#8) ||| 0x40#8 := by
  simp [normalizeIdentifier, byteAt_eq_getElem]

theorem byteAt_normalizeIdentifier_eight (u : Lanes) :
    byteAt (normalizeIdentifier u) 8 = (byteAt u 8 &&& 0x3F#8) ||| 0x80#8 := by
  simp [normalizeIdentifier, byteAt_eq_getElem]

theorem byteAt_normalizeIdentifier_of_ne (u : Lanes) {b : Nat} (hb : b < 16) (h₆ : b ≠ 6) (h₈ : b ≠ 8) :
    byteAt (normalizeIdentifier u) b = byteAt u b := by
  simp [normalizeIdentifier, byteAt_eq_getElem _ hb, h₆.symm, h₈.symm]

theorem canonical_normalizeIdentifier (u : Lanes) : Canonical (normalizeIdentifier u) := by
  have hversion : ∀ x : Byte, ((x &&& 0x0F#8) ||| 0x40#8) &&& 0xF0#8 = 0x40#8 := by decide +kernel
  have hvariant : ∀ x : Byte, ((x &&& 0x3F#8) ||| 0x80#8) &&& 0xC0#8 = 0x80#8 := by decide +kernel
  rw [Canonical, byteAt_normalizeIdentifier_six, byteAt_normalizeIdentifier_eight]
  exact ⟨hversion _, hvariant _⟩

/-- Normalizing rewrites the fixed bits of bytes 6 and 8 and nothing else. -/
theorem sameFreeBits_normalizeIdentifier (u : Lanes) : SameFreeBits (normalizeIdentifier u) u := by
  have hlower₆ : ∀ x : Byte, ∀ i < 4, ((x &&& 0x0F#8) ||| 0x40#8).getLsbD i = x.getLsbD i := by decide +kernel
  have hlower₈ : ∀ x : Byte, ∀ i < 6, ((x &&& 0x3F#8) ||| 0x80#8).getLsbD i = x.getLsbD i := by decide +kernel
  intro k hk hfree
  have hbyte : byteOf k < 16 := by unfold byteOf; omega
  have hbit : bitOf k < 8 := by unfold bitOf; omega
  obtain ⟨hversion, hvariant⟩ := bit_lt_of_not_isFixed hbit hfree
  by_cases h₆ : byteOf k = 6
  · rw [h₆, bitAt, byteAt_normalizeIdentifier_six, hlower₆ _ _ (hversion h₆), byteAt_getLsbD]
  · by_cases h₈ : byteOf k = 8
    · rw [h₈, bitAt, byteAt_normalizeIdentifier_eight, hlower₈ _ _ (hvariant h₈), byteAt_getLsbD]
    · rw [bitAt, byteAt_normalizeIdentifier_of_ne u hbyte h₆ h₈, byteAt_getLsbD]

/-- An identifier and its normalization are two inputs of one payload. -/
theorem payloadOf_normalizeIdentifier (u : Lanes) : payloadOf (normalizeIdentifier u) = payloadOf u :=
  payloadOf_eq_iff_sameFreeBits.mpr (sameFreeBits_normalizeIdentifier u)

/-! ### The two round trips -/

/-- What UNPACK rebuilds from an identifier's payload is its normalization, the canonical input of that payload. -/
theorem identifierOf_payloadOf_eq_normalizeIdentifier (u : Lanes) :
    identifierOf (payloadOf u) = normalizeIdentifier u := by
  rw [← payloadOf_normalizeIdentifier, identifierOf_payloadOf (canonical_normalizeIdentifier u)]

theorem normalizeIdentifier_of_canonical {u : Lanes} (hu : Canonical u) : normalizeIdentifier u = u := by
  rw [← identifierOf_payloadOf_eq_normalizeIdentifier, identifierOf_payloadOf hu]

/-- Settles O29: UNPACK accepts the payload PACK gives, and rebuilds the normalization from it. -/
theorem roundTripNormalizes : Obligations.RoundTripNormalizes := by
  intro s t len u hs ht
  have hunpack := exec_unpack_of_validPayload ht (validPayload_payloadOf u)
  rw [identifierOf_payloadOf_eq_normalizeIdentifier] at hunpack
  exact ⟨payloadOf u, exec_pack_of_not_inReset hs len u, hunpack, normalizeIdentifier_of_canonical⟩

/-- Settles O30: PACK gives back the payload the identifier was rebuilt from. -/
theorem reencodeIsStable : Obligations.ReencodeIsStable := by
  intro s t len p hs ht hp
  have hpack := exec_pack_of_not_inReset ht len (identifierOf p)
  rw [payloadOf_identifierOf hp] at hpack
  exact ⟨identifierOf p, exec_unpack_of_validPayload hs hp, hpack⟩

/-! ### The bijections -/

theorem invOn_identifierOf_payloadOf :
    Set.InvOn identifierOf payloadOf {u | Canonical u} {p | ValidPayload p} :=
  ⟨fun _ hu => identifierOf_payloadOf hu, fun _ hp => payloadOf_identifierOf hp⟩

theorem bijOn_payloadOf : Set.BijOn payloadOf {u | Canonical u} {p | ValidPayload p} :=
  invOn_identifierOf_payloadOf.bijOn (fun u _ => validPayload_payloadOf u) fun p _ => canonical_identifierOf p

theorem bijOn_identifierOf : Set.BijOn identifierOf {p | ValidPayload p} {u | Canonical u} :=
  Set.BijOn.symm invOn_identifierOf_payloadOf.symm bijOn_payloadOf

/-! ### Counting the valid payloads -/

theorem payloadNumber_busLanes (w : BitVec 128) : payloadNumber (busLanes w) = w.toNat := by
  rw [← laneBus_toNat, laneBus_busLanes]

theorem payloadNumber_injective : Function.Injective payloadNumber := by
  intro p q h
  rw [← laneBus_toNat, ← laneBus_toNat] at h
  rw [← busLanes_laneBus p, BitVec.eq_of_toNat_eq h, busLanes_laneBus]

/-- A number without bits 122 to 127 has the padding 0 in its lane 15. -/
theorem validPayload_busLanes {w : BitVec 128} (h : w.toNat < 2 ^ 122) : ValidPayload (busLanes w) := by
  have hmask : ∀ x : Byte, x.toNat < 4 → x &&& 0b11111100#8 = 0#8 := by decide +kernel
  have hlane : byteAt (busLanes w) 15 = w.extractLsb' 120 8 := byteAt_ofFn _ (by omega)
  refine hmask _ ?_
  rw [hlane, BitVec.extractLsb'_toNat, Nat.shiftRight_eq_div_pow]
  omega

/-- The valid payloads are the numbers below `2 ^ 122` (spec/20_memory.md R42). -/
theorem bijOn_payloadNumber : Set.BijOn payloadNumber {p | ValidPayload p} (Set.Iio (2 ^ 122)) := by
  refine ⟨fun p hp => payloadNumber_lt_of_validPayload hp, payloadNumber_injective.injOn, fun n hn => ?surj⟩
  case surj =>
    have hn : n < 2 ^ 122 := hn
    have htoNat : (BitVec.ofNat 128 n).toNat = n := by
      rw [BitVec.toNat_ofNat, Nat.mod_eq_of_lt (by omega)]
    exact ⟨busLanes (BitVec.ofNat 128 n), validPayload_busLanes (htoNat.symm ▸ hn),
      (payloadNumber_busLanes _).trans htoNat⟩

theorem ncard_validPayload : {p : Lanes | ValidPayload p}.ncard = 2 ^ 122 := by
  rw [bijOn_payloadNumber.ncard_eq, Set.ncard_Iio_nat]

theorem ncard_canonical : {u : Lanes | Canonical u}.ncard = 2 ^ 122 := by
  rw [bijOn_payloadOf.ncard_eq, ncard_validPayload]

/-- The all-zero identifier is not canonical, and its normalization has the same payload. -/
theorem not_injective_payloadOf : ¬ Function.Injective payloadOf := by
  intro hinj
  have hcanonical := canonical_normalizeIdentifier zeroLanes
  rw [hinj (payloadOf_normalizeIdentifier zeroLanes)] at hcanonical
  exact absurd hcanonical (by decide)

/-- Settles O31: the scans undo each other, a valid payload is a number below `2 ^ 122`, and 64 inputs share it. -/
theorem packAndUnpackAreInverseBijections : Obligations.PackAndUnpackAreInverseBijections :=
  ⟨bijOn_payloadOf, bijOn_identifierOf, invOn_identifierOf_payloadOf, ncard_canonical, ncard_validPayload,
    not_injective_payloadOf, fun _ => ncard_payloadOf_eq⟩

/-! ### The response and the source's vectors -/

/-- Settles O32: the one response is the instruction's answer; PACK reads neither `len` nor the fixed bits, and UNPACK
reads no lane when the length is not 16. -/
theorem responseDependsOnRequestAlone : Obligations.ResponseDependsOnRequestAlone :=
  ⟨fun i => ⟨answer i, fun _ hr hi => exec_of_wf_of_not_inReset hi hr⟩,
    fun _ _ _ _ => exec_pack.trans exec_pack.symm,
    fun s len u v h => packIgnoresFixedBitsAndLength s len len u v h,
    fun s _ din din' h => exec_unpack_of_len_ne h din din' s⟩

/-- Settles O33: the three payloads are computed, and the way back is UNPACK undoing PACK on canonical identifiers. -/
theorem sourceVectorsRoundTrip : Obligations.SourceVectorsRoundTrip := by
  intro v hv
  have hpack : Canonical v.1 ∧ payloadOf v.1 = v.2 := by
    revert v
    decide +kernel
  obtain ⟨hcanonical, hpayload⟩ := hpack
  exact ⟨hcanonical, hpayload, hpayload ▸ identifierOf_payloadOf hcanonical⟩

end Sys2Proof.Machine
end

section
/-! Errors are responses and not traps: what a performed request leaves behind, and when a step stops
(spec/60_exceptions.md R205, R206). -/

namespace Sys2Proof.Machine

/-! ### What a performed request leaves behind -/

/-- An instruction that runs out of reset, whatever its length, leaves its answer in flight and nothing else. -/
theorem eq_withResponse_of_exec {i : Instr} {s t : State} (hr : s.inReset = false) (h : exec i s = .next t) :
    t = s.withResponse (answer i) := by
  cases i with
  | pack len din =>
    rw [exec_pack, hr, if_neg Bool.false_ne_true] at h
    cases h
    rfl
  | unpack len din =>
    by_cases hlen : len < 2 ^ s.cfg.lenW
    · have hwf : (Instr.unpack len din).wf s.cfg.lenW = true := decide_eq_true hlen
      rw [exec_of_wf_of_not_inReset hwf hr] at h
      cases h
      rfl
    · rw [exec_unpack_of_not_wf hlen] at h
      cases h

/-- Settles O28: the first instruction leaves only its answer in flight, which the second does not read. -/
theorem noResponseLeavesATrace : Obligations.NoResponseLeavesATrace := by
  intro s t i j hr hj hexec
  obtain rfl := eq_withResponse_of_exec hr hexec
  exact ⟨answer j, exec_of_wf_of_not_inReset hj hr, exec_of_wf_of_not_inReset hj hr⟩

/-! ### When a step stops -/

theorem request_wf_eq_false_iff {lenW : Nat} {r : Request} : r.wf lenW = false ↔ 2 ^ lenW ≤ r.len := by
  rw [Request.wf, decide_eq_false_iff_not, Nat.not_lt]

theorem step_of_not_wf {s : State} {r : Request} {es : List Event} (hs : s.schedule = .request r :: es)
    (hr : r.wf s.cfg.lenW = false) : step s = .refused .lengthNotPresentable := by
  simp only [step_cons hs, perform, acceptRequest, advance_cfg, decode_of_not_wf hr, refusalOf]

/-- A step goes on, unless its event is a request whose length does not fit. -/
theorem step_next_or_not_wf (s : State) :
    (∃ t, step s = .next t) ∨ ∃ r es, s.schedule = .request r :: es ∧ r.wf s.cfg.lenW = false := by
  cases hs : s.schedule with
  | nil => exact .inl ⟨_, step_nil hs⟩
  | cons e es =>
    rw [step_cons hs]
    obtain ⟨r, rfl, hr, -⟩ | ⟨r, i, -, -, -, hp⟩ | ⟨-, hp⟩ | ⟨-, hp⟩ | ⟨-, hp⟩ := perform_cases e (advance s)
    · exact .inr ⟨r, es, rfl, hr⟩
    all_goals exact .inl ⟨_, hp⟩

theorem step_ne_fault (s : State) (f : Fault) : step s ≠ .fault f := by
  intro h
  obtain ⟨t, ht⟩ | ⟨r, es, hs, hr⟩ := step_next_or_not_wf s
  · cases ht.symm.trans h
  · cases (step_of_not_wf hs hr).symm.trans h

theorem step_eq_refused_iff {s : State} {x : Refusal} :
    step s = .refused x ↔
      x = .lengthNotPresentable ∧ ∃ r es, s.schedule = .request r :: es ∧ r.wf s.cfg.lenW = false := by
  constructor
  · intro h
    obtain ⟨t, ht⟩ | ⟨r, es, hs, hr⟩ := step_next_or_not_wf s
    · cases ht.symm.trans h
    · cases (step_of_not_wf hs hr).symm.trans h
      exact ⟨rfl, r, es, hs, hr⟩
  · rintro ⟨rfl, r, es, hs, hr⟩
    exact step_of_not_wf hs hr

/-- Settles O39: a step goes on or refuses, and it refuses exactly a request that is not well-formed. -/
theorem stepStopsOnlyOnUnpresentableLength : Obligations.StepStopsOnlyOnUnpresentableLength := by
  refine fun s => ⟨step_ne_fault s, fun x => ?_⟩
  simp only [step_eq_refused_iff, request_wf_eq_false_iff]

end Sys2Proof.Machine
end

section
/-! Reset: nothing from before it appears after it, and nothing is answered while it is asserted
(spec/70_reset_and_hazards.md R240, R241). -/

namespace Sys2Proof.Machine

/-! ### What reset discards -/

theorem step_assertReset {s : State} {es : List Event} (hs : s.schedule = .assertReset :: es) :
    step s = .next (enterReset (advance s)) := by
  rw [step_cons hs, perform]

/-- The state after reset is asserted holds nothing of what was pending or on the outputs. -/
theorem enterReset_advance_discards (s : State) (pending : List Response) (out : Option Response) :
    enterReset (advance { s with inFlight := pending, rspOut := out }) = enterReset (advance s) := rfl

/-- What a run emits depends on its first state only through the first step. -/
theorem emitted_eq_of_step_eq {s t : State} (h : step s = step t) (n : Nat) : emitted n s = emitted n t := by
  cases n with
  | zero => rfl
  | succ n => rw [emitted, emitted, h]

/-- Settles O45: the assertion of reset takes both states to the same one. -/
theorem resetDiscardsWhatWasInFlight : Obligations.ResetDiscardsWhatWasInFlight := by
  intro s es pending out n hs
  refine emitted_eq_of_step_eq ?_ n
  calc step { s with inFlight := pending, rspOut := out }
      = .next (enterReset (advance { s with inFlight := pending, rspOut := out })) := step_assertReset hs
    _ = .next (enterReset (advance s)) := by rw [enterReset_advance_discards]
    _ = step s := (step_assertReset hs).symm

/-! ### While reset is asserted -/

theorem exec_of_wf_of_inReset {i : Instr} {s : State} (hi : i.wf s.cfg.lenW = true) (hr : s.inReset = true) :
    exec i s = .next s := by
  rw [exec_of_wf hi, if_pos hr]

/-- A step under reset whose event does not release it carries no response and leaves reset asserted. -/
theorem step_next_of_inReset {s t : State} (hr : s.inReset = true) (hrelease : .releaseReset ∉ s.schedule)
    (h : step s = .next t) : t.rspOut = none ∧ t.inReset = true ∧ t.schedule = s.schedule.tail := by
  obtain ⟨-, rfl⟩ | ⟨q, i, -, hr', -⟩ | ⟨r, rest, -, hr', -⟩ | ⟨-, rfl⟩ | ⟨hhead, -⟩ := step_next_cases h
  · exact ⟨rfl, hr, rfl⟩
  · cases hr.symm.trans hr'
  · cases hr.symm.trans hr'
  · exact ⟨rfl, rfl, rfl⟩
  · exact absurd (List.mem_of_head? hhead) hrelease

theorem emitted_of_inReset {s : State} (hr : s.inReset = true) (hrelease : .releaseReset ∉ s.schedule) (n : Nat) :
    emitted n s = [] := by
  induction n generalizing s with
  | zero => rfl
  | succ n ih =>
    obtain ⟨t, hstep⟩ | ⟨q, es, hs, hq⟩ := step_next_or_not_wf s
    · obtain ⟨hout, hr', hs'⟩ := step_next_of_inReset hr hrelease hstep
      have hrelease' : .releaseReset ∉ t.schedule := hs' ▸ fun hmem => hrelease (List.mem_of_mem_tail hmem)
      rw [emitted_succ_of_step hstep, hout, ih hr' hrelease', Option.toList_none, List.append_nil]
    · rw [emitted, step_of_not_wf hs hq]

/-- Settles O46: an induction over the steps, each of which leaves reset asserted. -/
theorem noResponseUnderReset : Obligations.NoResponseUnderReset :=
  ⟨fun _ n hr hrelease => emitted_of_inReset hr hrelease n, fun _ _ hr hi => exec_of_wf_of_inReset hi hr⟩

/-! ### The invariant right after reset -/

theorem inv_of_no_response {s : State} (hf : s.inFlight = []) (hout : s.rspOut = none) : s.Inv :=
  ⟨by simp [hf], by simp [hout], fun _ => ⟨hf, hout⟩⟩

/-- Settles O42: with nothing in flight and nothing on the outputs, every part of the invariant holds. -/
theorem resetMeetsInvariant : Obligations.ResetMeetsInvariant :=
  ⟨inv_of_no_response rfl rfl, rfl, rfl⟩

end Sys2Proof.Machine
end

section
/-! The request words the spec writes out (spec/95_test_vectors.md P1 and P3) and the two rows of
spec/opcode_table.json. -/

namespace Sys2Proof.Machine

/-- A number that the encoder gives for an instruction is read back as that instruction. -/
theorem decodeWord_of_encode_eq {lenW w : Nat} {i : Instr} (hi : i.wf lenW = true) (hw : (encode lenW i).toNat = w) :
    decodeWord lenW w = .ok i := by
  rw [← hw, decodeOfEncode lenW i hi]

/-- A table word that numbers the fields of an instruction is read as that instruction. -/
theorem decodeTableWord_of_fields_eq {nbits w : Nat} {i : Instr} (hi : i.wf Config.reference.lenW = true)
    (hw : tableRequest (w % 2 ^ nbits) = encodeFields i) : decodeTableWord nbits w = some i := by
  rw [decodeTableWord, hw, decode_encodeFields hi, Except.toOption]

/-- Settles O13: each number holds the fields of its instruction, and decoding gives back what was encoded. -/
theorem requestWordsOfTheSpec : Obligations.RequestWordsOfTheSpec := by
  refine ⟨?p1Pack, ?p1Unpack, ?p3Length15, ?p3Padding, ?p3Corrected, ?p3Length17, ?rowPack, ?rowUnpack⟩
  case rowPack | rowUnpack => exact decodeTableWord_of_fields_eq (by decide) (by decide)
  all_goals exact decodeWord_of_encode_eq (by decide) (by decide)

end Sys2Proof.Machine
end
